-- ==== Sys2Proof/Word.lean ====
section
/-! DEFINITION. The widths of the values the block moves (rules R8 and R6: a byte is 8 bits, a nibble 4, a line 1). -/

namespace Sys2Proof

/-- A byte: an unsigned 8-bit value, bit 7 the most significant (R8). -/
abbrev Byte := BitVec 8

/-- A nibble: 4 bits (R8, glossary). -/
abbrev Nibble := BitVec 4

/-- A level: one bit, `false` is 0 (low) and `true` is 1 (high) (R8). -/
abbrev Level := Bool

end Sys2Proof
end

