-- ==== Sys2Proof/Config.lean ====
section
/-! DEFINITION. The OPEN parameters of rule R6 that a board fixes (decisions D6 and D7): constants with no body, so
that no statement about the machine after reset can rest on a value of one. The ninth open parameter, VERSION, is a
store of the environment and stands in the state. The fixed constants of R6 are in Machine/Constants.lean. -/

namespace Sys2Proof

/-- A physical line identifier: an integer constant, opaque to the block (R6, D7). -/
abbrev PinId := Int

/-- The `pull_mode` argument of `acquire_input`: an opaque token, carried and never inspected (R6, D6). -/
abbrev PullMode := Int

/-- The parameters `PIN_*`, `INIT_*` and `PULL_UNUSED` of R6, read by ACQ and by nothing else. -/
structure Params where
  pinStrobe  : PinId
  pinClock   : PinId
  pinData    : PinId
  pinUnused  : PinId
  initStrobe : Level
  initClock  : Level
  initData   : Level
  pullUnused : PullMode
  deriving DecidableEq, Repr

namespace Config

/-- `PIN_STROBE` (R6, D7): no value is known. -/
opaque pinStrobe : PinId
/-- `PIN_CLOCK` (R6, D7): no value is known. -/
opaque pinClock : PinId
/-- `PIN_DATA` (R6, D7): no value is known. -/
opaque pinData : PinId
/-- `PIN_UNUSED` (R6, D7): no value is known. -/
opaque pinUnused : PinId
/-- `INIT_STROBE` (R6, D6): 0 or 1, not known which. -/
opaque initStrobe : Level
/-- `INIT_CLOCK` (R6, D6): 0 or 1, not known which. -/
opaque initClock : Level
/-- `INIT_DATA` (R6, D6): 0 or 1, not known which. -/
opaque initData : Level
/-- `PULL_UNUSED` (R6, D6): no value is known. -/
opaque pullUnused : PullMode

/-- The board's own parameters, together. -/
def params : Params where
  pinStrobe  := pinStrobe
  pinClock   := pinClock
  pinData    := pinData
  pinUnused  := pinUnused
  initStrobe := initStrobe
  initClock  := initClock
  initData   := initData
  pullUnused := pullUnused

end Config

end Sys2Proof
end

