-- ==== Sys2Proof/Syntax.lean ====
section
/-! DEFINITION. The 22 instructions of spec/opcode_table.json (rule R58): the four frame classes, the seven
operations and the eleven sequencer steps. -/

namespace Sys2Proof

/-- One constructor per row of the opcode table, in the table's order. -/
inductive Instr where
  /-- `FRM.CMD.E1` (R51): the frame byte `pppp1000`, a command nibble with enable set. -/
  | frmCmdE1 (p : Nibble)
  /-- `FRM.CMD.E0` (R51): the frame byte `pppp0000`, a command nibble with enable clear. -/
  | frmCmdE0 (p : Nibble)
  /-- `FRM.CHR.E1` (R51): the frame byte `pppp1010`, a character nibble with enable set. -/
  | frmChrE1 (p : Nibble)
  /-- `FRM.CHR.E0` (R51): the frame byte `pppp0010`, a character nibble with enable clear. -/
  | frmChrE0 (p : Nibble)
  /-- `XFER b` (R70): shift one byte out. -/
  | xfer (b : Byte)
  /-- `FRAME b` (R80): send one frame. -/
  | frame (b : Byte)
  /-- `NIB x` (R81): send one display nibble, two frames. -/
  | nib (x : Byte)
  /-- `BYTE m, v` (R90): send one display byte. -/
  | byte (m : Byte) (v : Byte)
  /-- `DELAY n` (R92): block for at least n microseconds. -/
  | delay (n : BitVec 13)
  /-- `ACQ` (R100): acquire the four signal lines. -/
  | acq
  /-- `BOOT` (R101): the whole boot sequence. -/
  | boot
  /-- `S1` (R109). -/
  | s1
  /-- `S2` (R110). -/
  | s2
  /-- `S3` (R111). -/
  | s3
  /-- `S4` (R112). -/
  | s4
  /-- `S5` (R113). -/
  | s5
  /-- `S6` (R114). -/
  | s6
  /-- `S7` (R115). -/
  | s7
  /-- `S8` (R116). -/
  | s8
  /-- `S9` (R117). -/
  | s9
  /-- `S10` (R118). -/
  | s10
  /-- `S11` (R119). -/
  | s11
  deriving DecidableEq, Repr

end Sys2Proof
end

