-- ==== Sys2Proof/WellFormed.lean ====
section
/-! DEFINITION. Which operand values the spec admits (rule R59). The widths of the other operands are in their types. -/

namespace Sys2Proof

/-- `x & 0x0D == 0`: bits 3, 2 and 0 of a nibble value are zero (R59). -/
def nibAdmitted (x : Byte) : Bool := x &&& 0x0D#8 == 0#8

/-- A mode operand is 0 (command) or 2 (character) (R59). -/
def modeAdmitted (m : Byte) : Bool := m == 0#8 || m == 2#8

/-- The instruction's operands are among those R59 admits. -/
def Instr.wellFormed : Instr → Bool
  | .nib x => nibAdmitted x
  | .byte m _ => modeAdmitted m
  | .frmCmdE1 _ | .frmCmdE0 _ | .frmChrE1 _ | .frmChrE0 _ => true
  | .xfer _ | .frame _ | .delay _ | .acq | .boot => true
  | .s1 | .s2 | .s3 | .s4 | .s5 | .s6 | .s7 | .s8 | .s9 | .s10 | .s11 => true

end Sys2Proof
end

