-- ==== Sys2Proof/Decode.lean ====
section
/-! DEFINITION. Encodings (rules R51, R56, R57, R59). "The operations are not encoded as bits anywhere": the code of
an operation is which block is asked and the bits of its operands, and the code of a sequencer step is the value of
STEP. Operand bits are held as bytes, the byte of bits 7:0 first, as spec/opcode_table.json numbers them. -/

namespace Sys2Proof

/-- The request inputs (R56). The Nibble Framer has two, FRAME and NIB. `frameOfClass` is the FRAME request again,
its frame byte named by its class of R51 (the rows `FRM.*` of the table). -/
inductive Port where
  | transmitter | framer | nibbleSend | byteFramer | delayUnit | pinBinding | bootSequencer | frameOfClass
  deriving DecidableEq, Repr

/-- One request: the input asked and its operand bytes, least significant first (R56). -/
structure Request where
  port  : Port
  bytes : List Byte
  deriving DecidableEq, Repr

/-- What selects an action: a request to a block (R56), or the value of STEP (R57). -/
inductive Code where
  | request (r : Request)
  | step (n : BitVec 4)
  deriving DecidableEq, Repr

/-- Why a code stands for no instruction. -/
inductive DecodeError where
  /-- Not the number of operand bytes the request takes (R56). -/
  | operandLength
  /-- A nibble value with bit 3, 2 or 0 set (R59). -/
  | nibLowBits
  /-- A mode operand other than 0 and 2 (R59). -/
  | byteMode
  /-- A delay operand above 8191, more than 13 bits (R59). -/
  | delayWidth
  /-- ACQ or BOOT without the request bit, or with more than it (R56). -/
  | notTheRequestBit
  /-- A frame byte of none of the four classes (R51). -/
  | noFrameClass
  /-- STEP is 0: idle, no action (R57). -/
  | stepIdle
  /-- STEP is 12 to 15: unreachable (R57, R59). -/
  | stepUnreachable
  deriving DecidableEq, Repr

/-- What decoding a code gives. -/
inductive Decoded where
  | ok (i : Instr)
  | reject (e : DecodeError)
  deriving DecidableEq, Repr

/-- The instruction, if there is one. -/
def Decoded.instr? : Decoded → Option Instr
  | .ok i => some i
  | .reject _ => none

/-- A frame byte read by its class: bits 3:0 tell the class, bits 7:4 are the payload (R50, R51). -/
def decodeFrameClass (b : Byte) : Decoded :=
  let p := b.extractLsb' 4 4
  let low := b.extractLsb' 0 4
  if low = 0x8#4 then .ok (.frmCmdE1 p)
  else if low = 0x0#4 then .ok (.frmCmdE0 p)
  else if low = 0xA#4 then .ok (.frmChrE1 p)
  else if low = 0x2#4 then .ok (.frmChrE0 p)
  else .reject .noFrameClass

/-- A request with one operand byte. -/
def decodeOneByte (p : Port) (b : Byte) : Decoded :=
  match p with
  | .transmitter => .ok (.xfer b)
  | .framer => .ok (.frame b)
  | .nibbleSend => if nibAdmitted b then .ok (.nib b) else .reject .nibLowBits
  | .pinBinding => if b = 1#8 then .ok .acq else .reject .notTheRequestBit
  | .bootSequencer => if b = 1#8 then .ok .boot else .reject .notTheRequestBit
  | .frameOfClass => decodeFrameClass b
  | .byteFramer | .delayUnit => .reject .operandLength

/-- A request with two operand bytes, `lo` bits 7:0 and `hi` bits 15:8: BYTE (`000000m0vvvvvvvv`) and DELAY
(13 bits). -/
def decodeTwoBytes (p : Port) (lo hi : Byte) : Decoded :=
  match p with
  | .byteFramer => if modeAdmitted hi then .ok (.byte hi lo) else .reject .byteMode
  | .delayUnit => if hi.extractLsb' 5 3 = 0#3 then .ok (.delay (hi.extractLsb' 0 5 ++ lo)) else .reject .delayWidth
  | .transmitter | .framer | .nibbleSend | .pinBinding | .bootSequencer | .frameOfClass => .reject .operandLength

/-- The step whose number STEP holds (R57). -/
def decodeStep (n : BitVec 4) : Decoded :=
  match n.toNat with
  | 0 => .reject .stepIdle
  | 1 => .ok .s1
  | 2 => .ok .s2
  | 3 => .ok .s3
  | 4 => .ok .s4
  | 5 => .ok .s5
  | 6 => .ok .s6
  | 7 => .ok .s7
  | 8 => .ok .s8
  | 9 => .ok .s9
  | 10 => .ok .s10
  | 11 => .ok .s11
  | _ => .reject .stepUnreachable

/-- The decoder: total on every code. -/
def decode : Code → Decoded
  | .step n => decodeStep n
  | .request ⟨p, [b]⟩ => decodeOneByte p b
  | .request ⟨p, [lo, hi]⟩ => decodeTwoBytes p lo hi
  | .request ⟨_, _⟩ => .reject .operandLength

/-- A frame byte from a payload and its low nibble (R50). -/
def frameByteOf (p low : Nibble) : Byte := p ++ low

/-- The encoder, written from R51, R56 and R57. -/
def encode : Instr → Code
  | .frmCmdE1 p => .request ⟨.frameOfClass, [frameByteOf p 0x8#4]⟩
  | .frmCmdE0 p => .request ⟨.frameOfClass, [frameByteOf p 0x0#4]⟩
  | .frmChrE1 p => .request ⟨.frameOfClass, [frameByteOf p 0xA#4]⟩
  | .frmChrE0 p => .request ⟨.frameOfClass, [frameByteOf p 0x2#4]⟩
  | .xfer b => .request ⟨.transmitter, [b]⟩
  | .frame b => .request ⟨.framer, [b]⟩
  | .nib x => .request ⟨.nibbleSend, [x]⟩
  | .byte m v => .request ⟨.byteFramer, [v, m]⟩
  | .delay n => .request ⟨.delayUnit, [n.extractLsb' 0 8, (n.extractLsb' 8 5).setWidth 8]⟩
  | .acq => .request ⟨.pinBinding, [1#8]⟩
  | .boot => .request ⟨.bootSequencer, [1#8]⟩
  | .s1 => .step 1#4
  | .s2 => .step 2#4
  | .s3 => .step 3#4
  | .s4 => .step 4#4
  | .s5 => .step 5#4
  | .s6 => .step 6#4
  | .s7 => .step 7#4
  | .s8 => .step 8#4
  | .s9 => .step 9#4
  | .s10 => .step 10#4
  | .s11 => .step 11#4

/-- Which code a bare 8-bit table word is read as. DESIGN CHOICE (assumption 10): the table's patterns overlap,
because the spec selects an operation by the block asked and not by bits, so a word alone must be given a block. -/
def tableCode8 (w : Nat) : Code :=
  let b := BitVec.ofNat 8 w
  if 1 ≤ b.toNat ∧ b.toNat ≤ 11 then .step (BitVec.ofNat 4 w)
  else if b = 0#8 then .request ⟨.frameOfClass, [b]⟩
  else if nibAdmitted b then .request ⟨.nibbleSend, [b]⟩
  else if b.extractLsb' 0 4 = 0x8#4 ∨ b.extractLsb' 0 4 = 0xA#4 then .request ⟨.frameOfClass, [b]⟩
  else .request ⟨.framer, [b]⟩

/-- Which code a bare 16-bit table word is read as: BYTE where its fixed bits are zero, DELAY otherwise
(DESIGN CHOICE, assumption 10). -/
def tableCode16 (w : Nat) : Code :=
  let lo := BitVec.ofNat 8 w
  let hi := BitVec.ofNat 8 (w / 256)
  if modeAdmitted hi then .request ⟨.byteFramer, [lo, hi]⟩ else .request ⟨.delayUnit, [lo, hi]⟩

/-- Which code a bare word of the opcode table is read as, by the width of its row (DESIGN CHOICE, assumption 10). -/
def tableCode (nbits w : Nat) : Code :=
  if nbits = 1 then .request ⟨.bootSequencer, [BitVec.ofNat 8 w]⟩
  else if nbits = 4 then .step (BitVec.ofNat 4 w)
  else if nbits = 13 then .request ⟨.delayUnit, [BitVec.ofNat 8 w, BitVec.ofNat 8 (w / 256)]⟩
  else if nbits ≤ 8 then tableCode8 w
  else tableCode16 w

/-- The instruction the decoder reads from a bare word of the opcode table. -/
def decodeTableWord (nbits w : Nat) : Option Instr := (decode (tableCode nbits w)).instr?

end Sys2Proof
end

