-- ==== Sys2Proof/Machine/State.lean ====
section
/-! DEFINITION. The state of the block (file 10_state.md, rules R10 to R24), the events of its trace, and the ways a
step can end. -/

namespace Sys2Proof.Machine

/-- The three output lines (R10). -/
inductive Line where
  | strobe | clock | data
  deriving DecidableEq, Repr

/-- What a line latch holds: the level last written, or `unacquired` before the line has one (R10, R24). -/
inductive Latch where
  | unacquired
  | level (v : Level)
  deriving DecidableEq, Repr

/-- What a line is bound to: nothing yet, or a physical line, as an output or as an input with its pull mode
(R11, R12, R24). -/
inductive Binding where
  | unbound
  | output (pin : PinId)
  | input (pin : PinId) (pull : PullMode)
  deriving DecidableEq, Repr

/-- The events of the trace (R20). -/
inductive Event where
  /-- Output line `l` is bound to physical line `pin` and driven to level `v`. -/
  | acqOut (l : Line) (pin : PinId) (v : Level)
  /-- The unused input is bound to physical line `pin` with pull mode `pull`. -/
  | acqIn (pin : PinId) (pull : PullMode)
  /-- Line `l` is driven to level `v`. -/
  | w (l : Line) (v : Level)
  /-- At least `n` microseconds pass between the event before and the event after. -/
  | wait (n : Nat)
  deriving DecidableEq, Repr

/-- The four lines: the latches of the three outputs (R10) and what each line is bound to (R11, R12). -/
structure Lines where
  strobe    : Latch
  clock     : Latch
  data      : Latch
  strobePin : Binding
  clockPin  : Binding
  dataPin   : Binding
  unusedPin : Binding
  deriving DecidableEq, Repr

/-- The byte stores a step reads (R30). -/
inductive Space where
  | banner | cfg | version
  deriving DecidableEq, Repr

/-- The state of the block and the inputs of its runs. -/
structure State where
  /-- The lines (R10 to R12). -/
  lines       : Lines
  /-- `SESSION.mode` (R14, R15): only bit 1 can be set, nothing writes it. -/
  sessionMode : BitVec 2
  /-- `STEP`, the sequencer position (R16): 0 is idle. -/
  stepReg     : BitVec 4
  /-- `IDX`, the loop index (R17). -/
  idx         : BitVec 5
  /-- `SR`, the byte being shifted out (R18). -/
  sr          : Byte
  /-- `BC`, bits still to send (R18). -/
  bc          : BitVec 4
  /-- `FB`, the frame byte of the frame in progress (R18). -/
  fb          : Byte
  /-- `PH`, which frame of a nibble send (R18). -/
  ph          : BitVec 1
  /-- `VAL`, the byte being sent (R18). -/
  val         : Byte
  /-- `MD`, the mode operand (R18). -/
  md          : BitVec 2
  /-- `NS`, which nibble (R18). -/
  ns          : BitVec 1
  /-- `DLY`, microseconds still to wait (R18, R147). -/
  dly         : BitVec 13
  /-- `VERSION`, the environment's store, in canonical form (R33). -/
  version     : List Host.Cell
  /-- `PIN_*`, `INIT_*`, `PULL_UNUSED` (R6, R23): fixed for a run, written by nothing. -/
  params      : Params
  /-- The requests the environment has still to make, oldest first: the model's own field (R56, assumption 8). -/
  requests    : List Request
  /-- The history behind the trace (R20): every event emitted, newest first. `State.trace` reads it in order. -/
  log         : List Event
  deriving DecidableEq, Repr

/-- Why the machine stops with a fault: it never does. The block raises no exception of any kind (R140), so no
constructor exists and no step can answer a fault. -/
inductive Fault where
  deriving DecidableEq, Repr

/-- Why the model gives no meaning. None of these is an event of the hardware (R59, R140), and all are safe: the model
stops where the spec says nothing. -/
inductive Refusal where
  /-- Raised by `exec` for an instruction with no meaning yet. Safe. No arm uses it. -/
  | notModelled (mnemonic : String)
  /-- Raised by NIB for a nibble value outside R59. Safe. -/
  | nibNotAdmitted (x : Byte)
  /-- Raised by BYTE for a mode operand outside R59. Safe. -/
  | modeNotAdmitted (m : Byte)
  /-- Raised by BOOT invoked while STEP is not 0, outside the spec (R101, R152). Safe. -/
  | bootWhileBusy
  /-- Raised by a load of an index that the environment has not made readable (R33, R162, U9). Safe. -/
  | storeUnreadable (sp : Space) (i : Nat)
  /-- Raised by the step for a code that stands for no instruction (R57, R59). Safe. -/
  | undecodable (e : DecodeError)
  deriving DecidableEq, Repr

/-- What an instruction or a step answers. -/
abbrev Result := Host.Outcome State Fault Refusal

/-- The lines before acquisition (R24). -/
def Lines.reset : Lines where
  strobe    := .unacquired
  clock     := .unacquired
  data      := .unacquired
  strobePin := .unbound
  clockPin  := .unbound
  dataPin   := .unbound
  unusedPin := .unbound

/-- The state before the first BOOT (R24, R160). The working registers, which R24 leaves unspecified, hold 0
(DESIGN CHOICE, assumption 2); VERSION is not yet populated (assumption 3); nothing is requested. -/
def State.reset : State where
  lines       := Lines.reset
  sessionMode := 0
  stepReg     := 0
  idx         := 0
  sr          := 0
  bc          := 0
  fb          := 0
  ph          := 0
  val         := 0
  md          := 0
  ns          := 0
  dly         := 0
  version     := []
  params      := Config.params
  requests    := []
  log         := []

/-- The trace (R20): the events emitted, in the order in which they were emitted. -/
def State.trace (s : State) : List Event := s.log.reverse

end Sys2Proof.Machine
end

