-- ==== Sys2Proof/Machine/Flags.lean ====
section
/-! DEFINITION. Flags: the block has none (rule R19), no operation sets or reads one. The invocation handshake is "the
only status a realisation may expose". -/

namespace Sys2Proof.Machine

/-- Busy: `STEP != 0` (R19, R101). -/
def State.busy (s : State) : Bool := s.stepReg != 0#4

end Sys2Proof.Machine
end

