-- ==== Sys2Proof/Machine/Constants.lean ====
section
/-! DEFINITION. The fixed constants of rule R6 and the two constant stores (rules R31 and R32). The literals are the
document's, unaudited (U12), each in one place. -/

namespace Sys2Proof.Machine

/-- `MODE_CMD`: command framing (R6, R14). -/
def modeCmd : Byte := 0x00#8

/-- `MODE_CHR`: character framing (R6, R14). -/
def modeChr : Byte := 0x02#8

/-- `EN`: the enable bit of a frame byte (R6, R50). -/
def enableMask : Byte := 0x08#8

/-- `LINE_LEN`: characters of one text run (R6). -/
def lineLen : Nat := 20

/-- `T_SETTLE`: the settle interval after each byte (R6, R90). -/
def tSettle : BitVec 13 := 37#13

/-- `T_INIT1`: the delay after step 3 (R6, R111). -/
def tInit1 : BitVec 13 := 4500#13

/-- `T_INIT2`: the delay after step 4 (R6, R112). -/
def tInit2 : BitVec 13 := 150#13

/-- `T_CLEAR`: the delay after step 7 (R6, R115). -/
def tClear : BitVec 13 := 2000#13

/-- `BANNER` (R31): "ZYYX klipper startup", 20 ASCII codes (PRESUMED, assumption 18). -/
def banner : List Byte :=
  [0x5A#8, 0x59#8, 0x59#8, 0x58#8, 0x20#8, 0x6B#8, 0x6C#8, 0x69#8, 0x70#8, 0x70#8,
   0x65#8, 0x72#8, 0x20#8, 0x73#8, 0x74#8, 0x61#8, 0x72#8, 0x74#8, 0x75#8, 0x70#8]

/-- `CFG` (R32): the four configuration command bytes, in their order. -/
def cfg : List Byte := [0x28#8, 0x06#8, 0x0C#8, 0x01#8]

/-- The line-1 cursor command of step 8 (R116). -/
def cursorLine1 : Byte := 0x80#8

/-- The line-2 cursor command of step 10, `0x80 + 20` (R118). -/
def cursorLine2 : Byte := 0x94#8

/-- The frame byte of step 2 (R110). -/
def syncFrame : Byte := 0x00#8

/-- The nibble value of steps 3, 4 and 5 (R111 to R113). -/
def probeNibble : Byte := 0x30#8

/-- The nibble value of step 6 (R114). -/
def fourBitNibble : Byte := 0x20#8

end Sys2Proof.Machine
end

