-- ==== Sys2Proof/Machine/Operands.lean ====
section
/-! DEFINITION. How frame bytes are assembled from operands and read back (rules R50 and R55). -/

namespace Sys2Proof.Machine

/-- The high-nibble value `(v & 0xF0) | m` (R55). -/
def hiNibble (m v : Byte) : Byte := (v &&& 0xF0#8) ||| m

/-- The low-nibble value `((v << 4) & 0xF0) | m` (R55). -/
def loNibble (m v : Byte) : Byte := ((v <<< 4) &&& 0xF0#8) ||| m

/-- The enable-set frame byte of a nibble value (R55, R81). -/
def enableSet (x : Byte) : Byte := x ||| enableMask

/-- The enable-clear frame byte of a nibble value: the value itself (R55, R81). -/
def enableClear (x : Byte) : Byte := x

/-- Bits 7:4 of a frame byte, the payload (R50). -/
def payloadOf (f : Byte) : Nibble := f.extractLsb' 4 4

/-- Bit 3 of a frame byte, the enable (R50). -/
def enableOf (f : Byte) : Level := f.getLsbD 3

/-- Bit 1 of a frame byte, the mode (R50). -/
def modeOf (f : Byte) : Level := f.getLsbD 1

end Sys2Proof.Machine
end

