-- ==== Sys2Proof/Machine/Ops.lean ====
section
/-! DEFINITION. The named operations over lines, stores and registers. The block raises no exception and takes no
interrupt (rules R140, R142, R144), so there is no operation that takes one and none that returns from one. -/

namespace Sys2Proof.Machine

/-- Go on with `f` when `o` answers a next state; a fault or a refusal ends there. -/
def andThen (o : Result) (f : State → Result) : Result :=
  match o with
  | .next s => f s
  | .fault r => .fault r
  | .refused r => .refused r

/-! ## Lines -/

/-- The latch of line `l` (R10). -/
def Lines.latch (ls : Lines) : Line → Latch
  | .strobe => ls.strobe
  | .clock => ls.clock
  | .data => ls.data

/-- What output line `l` is bound to (R12). -/
def Lines.pin (ls : Lines) : Line → Binding
  | .strobe => ls.strobePin
  | .clock => ls.clockPin
  | .data => ls.dataPin

/-- Line `l` holds level `v`; no other line changes (R34). -/
def Lines.setLevel (ls : Lines) (l : Line) (v : Level) : Lines :=
  match l with
  | .strobe => { ls with strobe := .level v }
  | .clock => { ls with clock := .level v }
  | .data => { ls with data := .level v }

/-- Output line `l` is bound to physical line `pin` (R12). -/
def Lines.bindOut (ls : Lines) (l : Line) (pin : PinId) : Lines :=
  match l with
  | .strobe => { ls with strobePin := .output pin }
  | .clock => { ls with clockPin := .output pin }
  | .data => { ls with dataPin := .output pin }

/-- What one event does to the lines (R20). -/
def Lines.apply (ls : Lines) : Event → Lines
  | .acqOut l pin v => (ls.setLevel l v).bindOut l pin
  | .acqIn pin pull => { ls with unusedPin := .input pin pull }
  | .w l v => ls.setLevel l v
  | .wait _ => ls

/-- `emit e`: the event takes its effect on the lines and is added to the trace (R8, R20). -/
def State.emit (s : State) (e : Event) : State :=
  { s with lines := s.lines.apply e, log := e :: s.log }

/-- `L[l] <- v`: the latch is set and `W(l, v)` emitted, also when the level does not change (R20). -/
def State.drive (s : State) (l : Line) (v : Level) : State := s.emit (.w l v)

/-! ## Stores -/

/-- The value at key `a` in a list of cells; an unlisted key has none (assumption 3). -/
def cellRead : List Host.Cell → Nat → Option Byte
  | [], _ => none
  | (k, b) :: rest, a => if k = a then some b else cellRead rest a

/-- Put `b` at key `a`, keys staying in rising order. -/
def cellWrite : List Host.Cell → Nat → Byte → List Host.Cell
  | [], a, b => [(a, b)]
  | (k, c) :: rest, a, b =>
    if a < k then (a, b) :: (k, c) :: rest
    else if a = k then (a, b) :: rest
    else (k, c) :: cellWrite rest a b

/-- Every key of the list is above `a`. -/
def keysAbove (a : Nat) (m : List Host.Cell) : Bool := m.all fun c => decide (a < c.1)

/-- The canonical form: keys strictly rising. An unlisted key has no value, so no entry can equal it. -/
def Memory.wf : List Host.Cell → Bool
  | [] => true
  | c :: rest => keysAbove c.1 rest && Memory.wf rest

/-- Write the bytes at keys `a`, `a + 1`, ... -/
def cellLoad (m : List Host.Cell) : Nat → List Byte → List Host.Cell
  | _, [] => m
  | a, b :: bs => cellLoad (cellWrite m a b) (a + 1) bs

/-- `MemRead(space, i, 1)` (R8, R31 to R33): the byte at index `i`, if the store has one. -/
def State.memRead (s : State) (sp : Space) (i : Nat) : Option Byte :=
  match sp with
  | .banner => banner[i]?
  | .cfg => cfg[i]?
  | .version => cellRead s.version i

/-- The environment populates VERSION with these bytes from index 0, replacing what was there (R152, R162). -/
def State.loadVersion (s : State) (bs : List Byte) : State := { s with version := cellLoad [] 0 bs }

/-! ## The Serial Byte Transmitter -/

/-- Send the bits `k - 1` down to 0 of SR: each bit on DATA, CLOCK high, CLOCK low (R70); BC counts down (R18). -/
def State.xferLoop : Nat → State → State
  | 0, s => s
  | k + 1, s =>
    State.xferLoop k
      { (((s.drive .data (s.sr.getLsbD k)).drive .clock true).drive .clock false) with bc := BitVec.ofNat 4 k }

/-- `XFER(b)` (R70). -/
def State.xfer (s : State) (b : Byte) : State := State.xferLoop 8 { s with sr := b, bc := 8#4 }

/-! ## The Nibble Framer -/

/-- `FRAME(b)` (R80). -/
def State.frame (s : State) (b : Byte) : State :=
  let s := { s with fb := b }
  let s := s.drive .strobe false
  let s := s.drive .clock false
  let s := s.xfer s.fb
  s.drive .strobe true

/-- `NIB(x)` (R81), for an admitted nibble value. -/
def State.nib (s : State) (x : Byte) : State :=
  let s := { s with ph := 0#1 }
  let s := s.frame (enableSet x)
  let s := { s with ph := 1#1 }
  s.frame (enableClear x)

/-! ## The Byte Framer and the delay unit -/

/-- `wait(n)` (R92): the event, and DLY loaded with n and counted down to 0. -/
def State.wait (s : State) (n : BitVec 13) : State := { s.emit (.wait n.toNat) with dly := 0#13 }

/-- `BYTE(m, v)` (R90), for an admitted mode. -/
def State.byte (s : State) (m v : Byte) : State :=
  let s := { s with md := m.setWidth 2, val := v }
  let s := { s with ns := 0#1 }
  let s := s.nib (hiNibble (s.md.setWidth 8) s.val)
  let s := { s with ns := 1#1 }
  let s := s.nib (loNibble (s.md.setWidth 8) s.val)
  s.wait tSettle

/-! ## The Pin Binding -/

/-- `ACQ()` (R100): the four acquisition events, in the order in which the document lists the lines. -/
def State.acquire (s : State) : State :=
  let s := s.emit (.acqOut .strobe s.params.pinStrobe s.params.initStrobe)
  let s := s.emit (.acqOut .clock s.params.pinClock s.params.initClock)
  let s := s.emit (.acqOut .data s.params.pinData s.params.initData)
  s.emit (.acqIn s.params.pinUnused s.params.pullUnused)

/-! ## The Boot Sequencer -/

/-- The mode of steps 2 to 6 as a byte: bit 1 of SESSION.mode in bit 1; the other bit always reads 0 (R14, R15,
assumption 12). -/
def State.sessionByte (s : State) : Byte := s.sessionMode.setWidth 8 &&& modeChr

/-- `STEP <- n` (R16). -/
def State.setStep (s : State) (n : BitVec 4) : State := { s with stepReg := n }

/-- `IDX <- n` (R17). -/
def State.setIdx (s : State) (n : BitVec 5) : State := { s with idx := n }

/-- The loop of steps S7, S9 and S11 (R115, R117, R119): while IDX is below `bound`, fetch the byte at IDX, stop before
sending it when `stopAtZero` and it is 0x00, else send it in mode `m` and advance IDX. `fuel` bounds the passes. -/
def sendRun (sp : Space) (m : Byte) (bound : Nat) (stopAtZero : Bool) : Nat → State → Result
  | 0, s => .next s
  | fuel + 1, s =>
    if s.idx.toNat < bound then
      match s.memRead sp s.idx.toNat with
      | none => .refused (.storeUnreadable sp s.idx.toNat)
      | some c =>
        if stopAtZero && c == 0x00#8 then .next s
        else
          let s := s.byte m c
          sendRun sp m bound stopAtZero fuel (s.setIdx (s.idx + 1#5))
    else .next s

/-- `STEP` after step n is complete: n + 1, or 0 after step 11 (R16). -/
def State.advance (s : State) : State := s.setStep (if s.stepReg = 11#4 then 0#4 else s.stepReg + 1#4)

/-! ## What runs next -/

/-- What the machine performs next, and the state in which it does: while STEP is not 0 the sequencer's own step
(R57), else the oldest request made (R56), else nothing. -/
def fetch (s : State) : Option (Code × State) :=
  if s.busy then some (.step s.stepReg, s)
  else
    match s.requests with
    | [] => none
    | r :: rest => some (.request r, { s with requests := rest })

/-- What follows an instruction: after a sequencer step STEP advances (R16), after a request nothing. -/
def retire (c : Code) (o : Result) : Result :=
  match c with
  | .step _ => andThen o fun s => .next s.advance
  | .request _ => o

/-- The state in which `c` is what the machine performs next: STEP set to it, or the request in front of the others
while the sequencer is idle (assumption 1). -/
def State.place (s : State) (c : Code) : State :=
  match c with
  | .step n => s.setStep n
  | .request r => { s.setStep 0#4 with requests := r :: s.requests }

/-- VERSION as BOOT and S11 need it: unchanged if its index 0 can be read, else the empty string (R162,
assumption 11). -/
def State.ensureVersion (s : State) : State :=
  match cellRead s.version 0 with
  | some _ => s
  | none => { s with version := cellWrite s.version 0 0x00#8 }

/-- Whether a code is of an instruction that reads VERSION (R101, R119). -/
def readsVersion (c : Code) : Bool :=
  match decode c with
  | .ok .boot => true
  | .ok .s11 => true
  | _ => false

end Sys2Proof.Machine
end

