-- ==== Sys2Proof/Machine/ByteFramer.lean ====
section
/-! DEFINITION. The Byte Framer and the delay unit: BYTE, DELAY (file 42_byte_framer.md). -/

namespace Sys2Proof.Machine

/-- `BYTE m, v` (R90); a mode outside R59 is refused. -/
def execByte (m v : Byte) (s : State) : Result :=
  if modeAdmitted m then .next (s.byte m v) else .refused (.modeNotAdmitted m)

/-- `DELAY n` (R92): drives no line, always ends. -/
def execDelay (n : BitVec 13) (s : State) : Result := .next (s.wait n)

end Sys2Proof.Machine
end

