-- ==== Sys2Proof/Machine/NibbleFramer.lean ====
section
/-! DEFINITION. The Nibble Framer: FRAME, NIB (file 41_nibble_framer.md) and the four frame classes (rule R51). -/

namespace Sys2Proof.Machine

/-- `FRAME b` (R80): total on bytes. -/
def execFrame (b : Byte) (s : State) : Result := .next (s.frame b)

/-- `NIB x` (R81); a value outside R59 is refused. -/
def execNib (x : Byte) (s : State) : Result :=
  if nibAdmitted x then .next (s.nib x) else .refused (.nibNotAdmitted x)

/-- `FRM.CMD.E1` (R51): one frame with the frame byte `pppp1000` (DEDUCED, assumption 6). -/
def execFrmCmdE1 (p : Nibble) (s : State) : Result := .next (s.frame (frameByteOf p 0x8#4))

/-- `FRM.CMD.E0` (R51): one frame with the frame byte `pppp0000` (DEDUCED, assumption 6). -/
def execFrmCmdE0 (p : Nibble) (s : State) : Result := .next (s.frame (frameByteOf p 0x0#4))

/-- `FRM.CHR.E1` (R51): one frame with the frame byte `pppp1010` (DEDUCED, assumption 6). -/
def execFrmChrE1 (p : Nibble) (s : State) : Result := .next (s.frame (frameByteOf p 0xA#4))

/-- `FRM.CHR.E0` (R51): one frame with the frame byte `pppp0010` (DEDUCED, assumption 6). -/
def execFrmChrE0 (p : Nibble) (s : State) : Result := .next (s.frame (frameByteOf p 0x2#4))

end Sys2Proof.Machine
end

