-- ==== Sys2Proof/Machine/Sequencer.lean ====
section
/-! DEFINITION. The Pin Binding and the Boot Sequencer: ACQ, S1 to S11, BOOT (file 43_boot_sequencer.md). A step's
meaning is its action; STEP is moved between steps by BOOT (rule R16). -/

namespace Sys2Proof.Machine

/-- `ACQ` (R100): also on lines already owned (R105). -/
def execAcq (s : State) : Result := .next s.acquire

/-- `S1()` (R109): ACQ. -/
def execS1 (s : State) : Result := .next s.acquire

/-- `S2()` (R110): FRAME 0x00 in the session's mode (R14). -/
def execS2 (s : State) : Result := .next (s.frame (syncFrame ||| s.sessionByte))

/-- `S3()` (R111): NIB 0x30 in the session's mode, then 4500 microseconds. -/
def execS3 (s : State) : Result := .next ((s.nib (probeNibble ||| s.sessionByte)).wait tInit1)

/-- `S4()` (R112): NIB 0x30 in the session's mode, then 150 microseconds. -/
def execS4 (s : State) : Result := .next ((s.nib (probeNibble ||| s.sessionByte)).wait tInit2)

/-- `S5()` (R113): NIB 0x30 in the session's mode, no delay. -/
def execS5 (s : State) : Result := .next (s.nib (probeNibble ||| s.sessionByte))

/-- `S6()` (R114): NIB 0x20 in the session's mode, no delay. -/
def execS6 (s : State) : Result := .next (s.nib (fourBitNibble ||| s.sessionByte))

/-- `S7()` (R115): the four bytes of CFG in command mode, then 2000 microseconds once. -/
def execS7 (s : State) : Result :=
  andThen (sendRun .cfg modeCmd cfg.length false cfg.length (s.setIdx 0#5)) fun s => .next (s.wait tClear)

/-- `S8()` (R116): BYTE 0, 0x80. -/
def execS8 (s : State) : Result := .next (s.byte modeCmd cursorLine1)

/-- `S9()` (R117): the 20 bytes of BANNER in character mode, no terminator test. -/
def execS9 (s : State) : Result := sendRun .banner modeChr lineLen false lineLen (s.setIdx 0#5)

/-- `S10()` (R118): BYTE 0, 0x94. -/
def execS10 (s : State) : Result := .next (s.byte modeCmd cursorLine2)

/-- `S11()` (R119): the bytes of VERSION in character mode, up to its terminator or 20. -/
def execS11 (s : State) : Result := sendRun .version modeChr lineLen true lineLen (s.setIdx 0#5)

/-- `BOOT()` (R101), to completion. Invoked while STEP is not 0 it is outside the spec and refused (assumption 13). -/
def execBoot (s : State) : Result :=
  if s.busy then .refused .bootWhileBusy
  else
    andThen (execS1 (s.setStep 1#4)) fun s =>
    andThen (execS2 (s.setStep 2#4)) fun s =>
    andThen (execS3 (s.setStep 3#4)) fun s =>
    andThen (execS4 (s.setStep 4#4)) fun s =>
    andThen (execS5 (s.setStep 5#4)) fun s =>
    andThen (execS6 (s.setStep 6#4)) fun s =>
    andThen (execS7 (s.setStep 7#4)) fun s =>
    andThen (execS8 (s.setStep 8#4)) fun s =>
    andThen (execS9 (s.setStep 9#4)) fun s =>
    andThen (execS10 (s.setStep 10#4)) fun s =>
    andThen (execS11 (s.setStep 11#4)) fun s =>
    .next (s.setStep 0#4)

end Sys2Proof.Machine
end

