-- ==== Sys2Proof/Machine/Transmitter.lean ====
section
/-! DEFINITION. The Serial Byte Transmitter: XFER (file 40_serial_transmitter.md). -/

namespace Sys2Proof.Machine

/-- `XFER b` (R70): total, raises nothing, does not touch STROBE. -/
def execXfer (b : Byte) (s : State) : Result := .next (s.xfer b)

end Sys2Proof.Machine
end

