-- ==== Sys2Proof/Machine/Dispatch.lean ====
section
/-! DEFINITION. One arm per instruction of the opcode table. -/

namespace Sys2Proof.Machine

def exec (i : Instr) (s : State) : Host.Outcome State Fault Refusal :=
  match i with
  | .frmCmdE1 p => Sys2Proof.Machine.execFrmCmdE1 p s
  | .frmCmdE0 p => Sys2Proof.Machine.execFrmCmdE0 p s
  | .frmChrE1 p => Sys2Proof.Machine.execFrmChrE1 p s
  | .frmChrE0 p => Sys2Proof.Machine.execFrmChrE0 p s
  | .xfer b => Sys2Proof.Machine.execXfer b s
  | .frame b => Sys2Proof.Machine.execFrame b s
  | .nib x => Sys2Proof.Machine.execNib x s
  | .byte m v => Sys2Proof.Machine.execByte m v s
  | .delay n => Sys2Proof.Machine.execDelay n s
  | .acq => Sys2Proof.Machine.execAcq s
  | .boot => Sys2Proof.Machine.execBoot s
  | .s1 => Sys2Proof.Machine.execS1 s
  | .s2 => Sys2Proof.Machine.execS2 s
  | .s3 => Sys2Proof.Machine.execS3 s
  | .s4 => Sys2Proof.Machine.execS4 s
  | .s5 => Sys2Proof.Machine.execS5 s
  | .s6 => Sys2Proof.Machine.execS6 s
  | .s7 => Sys2Proof.Machine.execS7 s
  | .s8 => Sys2Proof.Machine.execS8 s
  | .s9 => Sys2Proof.Machine.execS9 s
  | .s10 => Sys2Proof.Machine.execS10 s
  | .s11 => Sys2Proof.Machine.execS11 s

end Sys2Proof.Machine
end

