-- ==== Sys2Proof/Machine/Step.lean ====
section
/-! DEFINITION. One step of the machine: what `fetch` finds is decoded and run, and `retire` moves STEP after a
sequencer step (rules R16, R56, R57). -/

namespace Sys2Proof.Machine

/-- One step. Idle with nothing requested, the machine stays as it is (R57, R161, assumption 19). -/
def step (s : State) : Host.Outcome State Fault Refusal :=
  match fetch s with
  | none => .next s
  | some (c, s') =>
    match decode c with
    | .ok i => retire c (exec i s')
    | .reject e => .refused (.undecodable e)

/-- The state in which the machine's next step runs the instruction that the table word stands for: STEP selects a
sequencer step, a request selects anything else (assumptions 1 and 10), and VERSION holds at least the empty string for
the two instructions that read it (assumption 11). -/
def State.withFetchWord (s : State) (nbits w : Nat) : State :=
  let c := tableCode nbits w
  if readsVersion c then (s.place c).ensureVersion else s.place c

end Sys2Proof.Machine
end

