-- ==== Sys2Proof/Machine/Events.lean ====
section
/-! DEFINITION. The operations as functions to events, as the rules give them beside their pseudocode (R70, R80, R81,
R90, R92, R100, R102). The meanings do not use these; statements compare the two. Literals are written out again from
the rules. -/

namespace Sys2Proof.Machine

/-- `E(i)` of R70: one bit on the wire. -/
def bitEvents (v : Level) : List Event := [.w .data v, .w .clock true, .w .clock false]

/-- `XFER(b) = E(7) ++ ... ++ E(0)` (R70). -/
def xferEvents (b : Byte) : List Event :=
  bitEvents (b.getLsbD 7) ++ bitEvents (b.getLsbD 6) ++ bitEvents (b.getLsbD 5) ++ bitEvents (b.getLsbD 4) ++
  bitEvents (b.getLsbD 3) ++ bitEvents (b.getLsbD 2) ++ bitEvents (b.getLsbD 1) ++ bitEvents (b.getLsbD 0)

/-- `FRAME(b)` (R80). -/
def frameEvents (b : Byte) : List Event :=
  [.w .strobe false, .w .clock false] ++ xferEvents b ++ [.w .strobe true]

/-- `NIB(x)` (R81). -/
def nibEvents (x : Byte) : List Event := frameEvents (x ||| 0x08#8) ++ frameEvents x

/-- `BYTE(m, v)` (R90). -/
def byteEvents (m v : Byte) : List Event :=
  nibEvents ((v &&& 0xF0#8) ||| m) ++ nibEvents (((v <<< 4) &&& 0xF0#8) ||| m) ++ [.wait 37]

/-- `ACQ()` (R100). -/
def acqEvents (p : Params) : List Event :=
  [.acqOut .strobe p.pinStrobe p.initStrobe, .acqOut .clock p.pinClock p.initClock,
   .acqOut .data p.pinData p.initData, .acqIn p.pinUnused p.pullUnused]

/-- The bytes of text run `cs`, in character mode, in order (R117, R119). -/
def textEvents (cs : List Byte) : List Event := cs.flatMap (byteEvents 0x02#8)

/-- Step 7's events (R115). -/
def configEvents : List Event :=
  byteEvents 0x00#8 0x28#8 ++ byteEvents 0x00#8 0x06#8 ++ byteEvents 0x00#8 0x0C#8 ++ byteEvents 0x00#8 0x01#8 ++
  [.wait 2000]

/-- The banner of R31, by its index: "ZYYX klipper startup". -/
def bannerText : List Byte :=
  [0x5A#8, 0x59#8, 0x59#8, 0x58#8, 0x20#8] ++ [0x6B#8, 0x6C#8, 0x69#8, 0x70#8, 0x70#8, 0x65#8, 0x72#8, 0x20#8] ++
  [0x73#8, 0x74#8, 0x61#8, 0x72#8, 0x74#8, 0x75#8, 0x70#8]

/-- `BOOT(VERSION)` (R102), the version characters sent being `cs`. -/
def bootEvents (p : Params) (cs : List Byte) : List Event :=
  acqEvents p ++ frameEvents 0x00#8 ++
  (nibEvents 0x30#8 ++ [.wait 4500]) ++ (nibEvents 0x30#8 ++ [.wait 150]) ++ nibEvents 0x30#8 ++ nibEvents 0x20#8 ++
  configEvents ++ byteEvents 0x00#8 0x80#8 ++ textEvents bannerText ++ byteEvents 0x00#8 0x94#8 ++ textEvents cs

/-- What a list of events does to the lines, in order (R20, R40). -/
def Lines.replay (ls : Lines) (es : List Event) : Lines := es.foldl Lines.apply ls

/-- The state after the events `es` and nothing else: the lines driven by them and the trace longer by them. -/
def State.after (s : State) (es : List Event) : State :=
  { s with lines := s.lines.replay es, log := es.reverse ++ s.log }

end Sys2Proof.Machine
end

