-- ==== Sys2Proof/Machine/Observer.lean ====
section
/-! DEFINITION. What an observer on the lines sees (file 44_observation.md): functions over traces. The receiver is
not part of the block (R22, R137). Whether an acquisition is an edge is not known to the block (R130, R163): every
function here takes it as an argument (assumption 14). -/

namespace Sys2Proof.Machine

/-! ## Waveform -/

/-- How one acquisition of an output is seen: as no transition, or as a rising (`true`) or a falling one (R130). The
functions below take a list with one entry for each `AcqOut` to come, in order; past its end, no transition. Which entry
goes with which level is left free (assumption 14). -/
abbrev AcqEdge := Option Level

/-- The level of line `l` after the events, `before` being its level before them (R130). -/
def levelAfter (l : Line) (before : Latch) : List Event → Latch
  | [] => before
  | .w k v :: es => levelAfter l (if k = l then .level v else before) es
  | .acqOut k _ v :: es => levelAfter l (if k = l then .level v else before) es
  | .acqIn _ _ :: es => levelAfter l before es
  | .wait _ :: es => levelAfter l before es

/-- The transition that a write of `v` makes when the level before it is `before`: none when that is not defined or is
already `v` (R130). -/
def writeEdge (before : Latch) (v : Level) : Option Level :=
  match before with
  | .unacquired => none
  | .level u => if u == v then none else some v

/-- The transition that the event is of line `l`, whose level before it is `before`: of a write as its level gives it, of
an acquisition as `acq` says, possibly one in either direction (R130). -/
def edgeOf (acq : List AcqEdge) (l : Line) (before : Latch) : Event → Option Level
  | .w k v => if k = l then writeEdge before v else none
  | .acqOut k _ _ => if k = l then acq.headD none else none
  | .acqIn _ _ => none
  | .wait _ => none

/-- The acquisitions still to come after the event. -/
def acqRest (acq : List AcqEdge) : Event → List AcqEdge
  | .acqOut _ _ _ => acq.tail
  | .w _ _ | .acqIn _ _ | .wait _ => acq

/-- An item of a waveform: a transition of a line, rising as `true`, or a wait (R130). -/
inductive WaveItem where
  | edge (l : Line) (v : Level)
  | wait (n : Nat)
  deriving DecidableEq, Repr

/-- What one event adds to the waveform: its transition, if it is one, or its wait. The unused input has none (R130). -/
def waveOf (acq : List AcqEdge) (ls : Lines) (e : Event) : List WaveItem :=
  match e with
  | .w l _ | .acqOut l _ _ => ((edgeOf acq l (ls.latch l) e).map (.edge l)).toList
  | .acqIn _ _ => []
  | .wait n => [.wait n]

/-- The observable boundary effect (R130): the transitions of the three outputs together with the waits between them, in
order, `ls` being the lines before the events. -/
def waveform (acq : List AcqEdge) (ls : Lines) : List Event → List WaveItem
  | [] => []
  | e :: es => waveOf acq ls e ++ waveform (acqRest acq e) (ls.apply e) es

/-- The direction of the item, if it is a transition of line `l`. -/
def WaveItem.edgeOn (l : Line) : WaveItem → Option Level
  | .edge k v => if k = l then some v else none
  | .wait _ => none

/-- The transitions of line `l` in the events, rising as `true` (R130). -/
def transitions (l : Line) (acq : List AcqEdge) (ls : Lines) (es : List Event) : List Level :=
  (waveform acq ls es).filterMap (WaveItem.edgeOn l)

/-- The level of DATA at each rising transition of CLOCK (R71). -/
def dataAtRisingClock (acq : List AcqEdge) (ls : Lines) : List Event → List Latch
  | [] => []
  | e :: es =>
    let rest := dataAtRisingClock (acqRest acq e) (ls.apply e) es
    if edgeOf acq .clock ls.clock e = some true then ls.data :: rest else rest

/-- DATA makes no transition while CLOCK is high (R71). -/
def dataStable (acq : List AcqEdge) (ls : Lines) : List Event → Bool
  | [] => true
  | e :: es =>
    !((edgeOf acq .data ls.data e).isSome && ls.clock == .level true) && dataStable (acqRest acq e) (ls.apply e) es

/-! ## The receiver -/

/-- The receiver: the levels it sees on STROBE and CLOCK, the level on the DATA wire (before acquisition some level, an
argument here), its shift stage RSH and its output stage ROUT (R131, R132), and how it will see the acquisitions to come
(R130, R163). A claim over every receiver is one over all of these. -/
structure Receiver where
  strobe : Latch
  clock  : Latch
  wire   : Level
  rsh    : Byte
  rout   : Byte
  acq    : List AcqEdge
  deriving DecidableEq, Repr

/-- At a rising transition of CLOCK, `RSH <- {RSH[6:0], DATA}` (R131). -/
def Receiver.onClock (r : Receiver) : Option Level → Receiver
  | some true => { r with rsh := r.rsh.extractLsb' 0 7 ++ BitVec.ofBool r.wire }
  | some false => r
  | none => r

/-- At a rising transition of STROBE, `ROUT <- RSH` (R132). -/
def Receiver.onStrobe (r : Receiver) : Option Level → Receiver
  | some true => { r with rout := r.rsh }
  | some false => r
  | none => r

/-- What one event does to the receiver: nothing but a rising CLOCK changes RSH, nothing but a rising STROBE changes ROUT
(R131, R132), be it a write or an acquisition that makes the edge (R130). -/
def Receiver.feed (r : Receiver) : Event → Receiver
  | .w .data v => { r with wire := v }
  | .w .clock v => { r.onClock (writeEdge r.clock v) with clock := .level v }
  | .w .strobe v => { r.onStrobe (writeEdge r.strobe v) with strobe := .level v }
  | .acqOut .data _ v => { r with wire := v, acq := r.acq.tail }
  | .acqOut .clock _ v => { r.onClock (r.acq.headD none) with clock := .level v, acq := r.acq.tail }
  | .acqOut .strobe _ v => { r.onStrobe (r.acq.headD none) with strobe := .level v, acq := r.acq.tail }
  | .acqIn _ _ => r
  | .wait _ => r

/-- The event is a rising transition of STROBE, a write or an acquisition, at which ROUT takes a value (R130, R132,
R133). -/
def Receiver.presents (r : Receiver) (e : Event) : Bool := edgeOf r.acq .strobe r.strobe e == some true

/-- The receiver after the events. -/
def Receiver.run (r : Receiver) (es : List Event) : Receiver := es.foldl Receiver.feed r

/-- An item of a frame list (R133). -/
inductive FrameItem where
  | frame (b : Byte)
  | wait (n : Nat)
  deriving DecidableEq, Repr

/-- `frames(t)` (R133): the values ROUT takes at the rising transitions of STROBE, one made by an acquisition included,
in order, with the waits at their places. -/
def frames (r : Receiver) : List Event → List FrameItem
  | [] => []
  | e :: es =>
    let rest := frames (r.feed e) es
    match e with
    | .wait n => .wait n :: rest
    | .w _ _ | .acqOut _ _ _ | .acqIn _ _ => if r.presents e then .frame (r.feed e).rout :: rest else rest

/-! ## Nibble writes and bytes -/

/-- Two adjacent frames that are one nibble write: enable set, then clear, every other bit equal (R134). -/
def isNibbleWrite (f g : Byte) : Bool := enableOf f && !enableOf g && (f ^^^ g == 0x08#8)

/-- An item of a nibble list (R134). -/
inductive NibbleItem where
  | nibble (p : Nibble) (mode : Level)
  | wait (n : Nat)
  deriving DecidableEq, Repr

/-- `nibbles(t)` of a frame list (R134): a frame in no pair is dropped, waits are kept. R134 does not say whether two
frames with a wait between them are adjacent: here they are not, so the wait breaks the pair and no nibble write is seen
(DESIGN CHOICE, assumption 22). -/
def nibbles : List FrameItem → List NibbleItem
  | [] => []
  | .wait n :: rest => .wait n :: nibbles rest
  | [.frame _] => []
  | .frame _ :: .wait n :: rest => .wait n :: nibbles rest
  | .frame f :: .frame g :: rest =>
    if isNibbleWrite f g then .nibble (payloadOf f) (modeOf f) :: nibbles rest
    else nibbles (.frame g :: rest)

/-- An item of a byte list (R136). -/
inductive ByteItem where
  | nibble (p : Nibble) (mode : Level)
  | byte (v : Byte) (mode : Level)
  | wait (n : Nat)
  deriving DecidableEq, Repr

/-- Two adjacent nibble writes of one mode, followed by `Wait(37)`, are a byte (R136). Nibble writes that do not pair so,
which no run of BOOT makes and of which R136 says nothing, are kept as they are (DESIGN CHOICE, assumption 22). -/
def pairNibbles : List NibbleItem → List ByteItem
  | [] => []
  | .wait n :: rest => .wait n :: pairNibbles rest
  | .nibble p m :: .nibble q k :: .wait n :: rest =>
    if m = k ∧ n = 37 then .byte (p ++ q) m :: .wait 37 :: pairNibbles rest
    else .nibble p m :: .nibble q k :: .wait n :: pairNibbles rest
  | .nibble p m :: rest => .nibble p m :: pairNibbles rest

/-- `bytes(t)` of a nibble list (R136): the first `single` nibble writes stand alone, the pairing begins after them. -/
def bytesAfter : Nat → List NibbleItem → List ByteItem
  | 0, ns => pairNibbles ns
  | _ + 1, [] => []
  | k + 1, .wait n :: rest => .wait n :: bytesAfter (k + 1) rest
  | k + 1, .nibble p m :: rest => .nibble p m :: bytesAfter k rest

/-- `bytes(t)` for the events of a run of BOOT (R136): four single nibbles, then bytes. -/
def bytesSeen (r : Receiver) (es : List Event) : List ByteItem := bytesAfter 4 (nibbles (frames r es))

/-- A text run as bytes: each character in character mode, each with its `Wait(37)` (R117, R119, R136). -/
def textSeen (cs : List Byte) : List ByteItem := cs.flatMap fun c => [.byte c true, .wait 37]

/-! ## Counts and time -/

/-- The event is a line write. -/
def Event.isWrite : Event → Bool
  | .w _ _ => true
  | .acqOut _ _ _ | .acqIn _ _ | .wait _ => false

/-- The event is an acquisition. -/
def Event.isAcquisition : Event → Bool
  | .acqOut _ _ _ | .acqIn _ _ => true
  | .w _ _ | .wait _ => false

/-- The event is a `Wait`. -/
def Event.isWait : Event → Bool
  | .wait _ => true
  | .w _ _ | .acqOut _ _ _ | .acqIn _ _ => false

/-- The microseconds that pass at least in the events: waits add (R92, R104). -/
def waitSum : List Event → Nat
  | [] => 0
  | .wait n :: es => n + waitSum es
  | .w _ _ :: es => waitSum es
  | .acqOut _ _ _ :: es => waitSum es
  | .acqIn _ _ :: es => waitSum es

end Sys2Proof.Machine
end

