-- ==== Sys2Proof/Safety.lean ====
section
/-! DEFINITION. What claims speak of: the states the block can be in, the version string as a run reads it, and what
a state keeps when an instruction has no business with it. -/

namespace Sys2Proof.Machine

/-- The control registers hold legal values (R15, R16, R17, R18): SESSION.mode 0, STEP 0 to 11, IDX 0 to 20, MD 0 or 2,
and between operations no bit is left to send and no delay is running. -/
abbrev State.RegistersLegal (s : State) : Prop :=
  s.sessionMode = 0#2 ∧ s.stepReg.toNat ≤ 11 ∧ s.idx.toNat ≤ 20 ∧ (s.md = 0#2 ∨ s.md = 2#2) ∧ s.bc = 0#4 ∧ s.dly = 0#13

/-- The lines are what the trace makes of unacquired lines: nothing but events moves a line (R10, R130). -/
abbrev State.LinesFollowTrace (s : State) : Prop := s.lines = Lines.reset.replay s.trace

/-- A binding is absent or is `b`. -/
abbrev Binding.OnlyTo (x b : Binding) : Prop := x = .unbound ∨ x = b

/-- Each line is unbound or bound to its own physical line (R10, R12). -/
abbrev State.LinesOwned (s : State) : Prop :=
  s.lines.strobePin.OnlyTo (.output s.params.pinStrobe) ∧ s.lines.clockPin.OnlyTo (.output s.params.pinClock) ∧
  s.lines.dataPin.OnlyTo (.output s.params.pinData) ∧
  s.lines.unusedPin.OnlyTo (.input s.params.pinUnused s.params.pullUnused)

/-- A line bound in `a` has the same binding in `b`. -/
abbrev Lines.KeptBy (a b : Lines) : Prop :=
  (a.strobePin ≠ .unbound → b.strobePin = a.strobePin) ∧ (a.clockPin ≠ .unbound → b.clockPin = a.clockPin) ∧
  (a.dataPin ≠ .unbound → b.dataPin = a.dataPin) ∧ (a.unusedPin ≠ .unbound → b.unusedPin = a.unusedPin)

/-- VERSION is in canonical form. -/
abbrev State.VersionCanonical (s : State) : Prop := Memory.wf s.version = true

/-- The whole invariant. -/
abbrev State.Inv (s : State) : Prop :=
  s.RegistersLegal ∧ s.LinesFollowTrace ∧ s.LinesOwned ∧ s.VersionCanonical

/-- `cs` is what step S11 sends of VERSION (R33, R119): at most 20 characters, each readable at its index and not 0x00,
and, if fewer than 20, a readable 0x00 after the last. Nothing is asked of any other index. -/
abbrev State.VersionIs (s : State) (cs : List Byte) : Prop :=
  cs.length ≤ 20 ∧ (∀ i : Fin cs.length, cellRead s.version i = some cs[i] ∧ cs[i] ≠ 0x00#8) ∧
  (cs.length < 20 → cellRead s.version cs.length = some 0x00#8)

/-- At rest after a frame: STROBE 1, CLOCK 0, DATA `d`, every binding as before (R10, R80). -/
def Lines.rest (ls : Lines) (d : Level) : Lines :=
  { ls with strobe := .level true, clock := .level false, data := .level d }

/-- The lines after ACQ: the initial levels, all four lines bound (R100). -/
def Lines.acquired (p : Params) : Lines where
  strobe    := .level p.initStrobe
  clock     := .level p.initClock
  data      := .level p.initData
  strobePin := .output p.pinStrobe
  clockPin  := .output p.pinClock
  dataPin   := .output p.pinData
  unusedPin := .input p.pinUnused p.pullUnused

/-- `s` with the working registers SR, BC, FB, PH, VAL, MD, NS, DLY (R18) and the history of `t`, whatever they are. -/
def State.withWorking (s t : State) : State :=
  { s with
    sr := t.sr, bc := t.bc, fb := t.fb, ph := t.ph, val := t.val, md := t.md, ns := t.ns, dly := t.dly, log := t.log }

/-- `t` differs from `s` at most in what a sending operation writes: the lines, the working registers SR, BC, FB, PH,
VAL, MD, NS, DLY (R18) and the trace. STEP, IDX, SESSION.mode, VERSION, the parameters and the requests are the same. -/
abbrev State.SameControl (s t : State) : Prop :=
  t.stepReg = s.stepReg ∧ t.idx = s.idx ∧ t.sessionMode = s.sessionMode ∧ t.version = s.version ∧
  t.params = s.params ∧ t.requests = s.requests

end Sys2Proof.Machine
end

