-- ==== Sys2Proof/Certificates/Slice0/Obligations.lean ====
section
/-! DEFINITION. The statements about the block, for the provers. Where a statement rests on a decision the spec marks as
its own (D<n> of 92_eei_decisions.md) or on a choice of the model (an assumption of notes/assumptions), its docstring says
so. A next state is said to be `t` equal to the start state but for the fields listed; `log := t.log` leaves the history
to the equation for `t.trace` beside it, and `sr := t.sr` and the like leave that register to another statement. -/

open Sys2Proof Sys2Proof.Machine

/-! ## Codes -/

/-- Operand patterns of 30_encoding.md (R51, R56, R57; D13) and the encodings of program P1: each word, written out from
its pattern, decodes to the instruction it stands for. The grouping into ports is the model's (assumptions 6 and 10). -/
def Obligations.DecoderReadsWordsOfTheSpec : Prop :=
  decode (.request ⟨.transmitter, [0b10100101#8]⟩) = .ok (.xfer 0xA5#8) ∧
  decode (.request ⟨.framer, [0b00000000#8]⟩) = .ok (.frame 0x00#8) ∧
  decode (.request ⟨.nibbleSend, [0b00110000#8]⟩) = .ok (.nib 0x30#8) ∧
  decode (.request ⟨.byteFramer, [0b10100101#8, 0b00000010#8]⟩) = .ok (.byte 2#8 0xA5#8) ∧
  decode (.request ⟨.delayUnit, [0b10010100#8, 0b00010001#8]⟩) = .ok (.delay 4500#13) ∧
  decode (.request ⟨.frameOfClass, [0b01011010#8]⟩) = .ok (.frmChrE1 5#4) ∧
  decode (.request ⟨.frameOfClass, [0b01010010#8]⟩) = .ok (.frmChrE0 5#4) ∧
  decode (.request ⟨.frameOfClass, [0b00111000#8]⟩) = .ok (.frmCmdE1 3#4) ∧
  decode (.request ⟨.frameOfClass, [0b00110000#8]⟩) = .ok (.frmCmdE0 3#4) ∧
  decode (.step 0b0001#4) = .ok .s1 ∧ decode (.step 0b0111#4) = .ok .s7 ∧ decode (.step 0b1011#4) = .ok .s11

/-- Decode and encode agree: every instruction the spec admits is read back from its code, with every operand at every
value (R56, R57, R59). -/
def Obligations.EncodedInstructionsDecodeBack : Prop :=
  ∀ i : Instr, i.wellFormed = true → decode (encode i) = .ok i

/-- The other way: a code that decodes is the code of the instruction it gives, and that instruction is admitted, so no
two codes stand for one instruction and no inadmissible operand is let in (R56, R57, R59). -/
def Obligations.DecodedCodesEncodeBack : Prop :=
  ∀ (c : Code) (i : Instr), decode c = .ok i → encode i = c ∧ i.wellFormed = true

/-- Values R59 (D12) does not admit decode to no instruction: a nibble value with bit 3, 2 or 0 set, a mode other than 0
and 2, a delay above 8191, STEP of 12 to 15. The fourth clause is the model's choice and not R59's, which admits any byte
for FRAME: a byte of no class of R51 is rejected on the port `frameOfClass`, the model's own request (DESIGN CHOICE,
assumption 6); on the port of FRAME it decodes. -/
def Obligations.InadmissibleCodesAreRejected : Prop :=
  (∀ x : Byte, x &&& 0x0D#8 ≠ 0#8 → decode (.request ⟨.nibbleSend, [x]⟩) = .reject .nibLowBits) ∧
  (∀ m v : Byte, m ≠ 0#8 → m ≠ 2#8 → decode (.request ⟨.byteFramer, [v, m]⟩) = .reject .byteMode) ∧
  (∀ lo hi : Byte, 32 ≤ hi.toNat → decode (.request ⟨.delayUnit, [lo, hi]⟩) = .reject .delayWidth) ∧
  (∀ b : Byte, b &&& 0x05#8 ≠ 0#8 → decode (.request ⟨.frameOfClass, [b]⟩) = .reject .noFrameClass) ∧
  (∀ n : BitVec 4, 12 ≤ n.toNat → decode (.step n) = .reject .stepUnreachable)

/-! ## One step -/

/-- A step runs the decoded instruction, idle machine: with STEP 0 the oldest request is taken off the list, decoded and
run; a request that is no code is refused. The list of requests is the model's (assumption 8). -/
def Obligations.StepRunsTheOldestRequest : Prop :=
  ∀ (s : State) (r : Request) (rest : List Request), s.stepReg = 0#4 → s.requests = r :: rest →
    (∀ i, decode (.request r) = .ok i → step s = exec i { s with requests := rest }) ∧
    (∀ e, decode (.request r) = .reject e → step s = .refused (.undecodable e))

/-- A step runs the decoded instruction, sequencer running: with STEP not 0 the step that STEP names is run, and STEP
moves on when it is complete, to n + 1, or to 0 after step 11 (R16, R57; D13). -/
def Obligations.StepRunsTheSequencerStep : Prop :=
  ∀ (s : State) (i : Instr), s.stepReg ≠ 0#4 → decode (.step s.stepReg) = .ok i →
    (∀ t, exec i s = .next t →
      step s = .next { t with stepReg := if s.stepReg = 11#4 then 0#4 else s.stepReg + 1#4 }) ∧
    (∀ r, exec i s = .refused r → step s = .refused r)

/-- Idle and asked nothing, the machine stays as it is (R57 row 0, R161; the model's reading, assumption 19). -/
def Obligations.IdleMachineStaysAsItIs : Prop :=
  ∀ s : State, s.stepReg = 0#4 → s.requests = [] → step s = .next s

/-- STEP of 12 to 15 is refused (R59; D12). -/
def Obligations.UnreachablePositionIsRefused : Prop :=
  ∀ s : State, 12 ≤ s.stepReg.toNat → step s = .refused (.undecodable .stepUnreachable)

/-- STEP moves in no other way: a step from position n of 1 to 10 makes it n + 1, a step from 11 makes it 0 (R16, R103;
D13). That a step from position 0 leaves it 0 is the model's choice and not R16's, by which BOOT sets STEP to 1: here a
BOOT that is asked for runs to its end, STEP 0 again, in one step of the machine (DESIGN CHOICE, assumption 1). -/
def Obligations.PositionOnlyAdvances : Prop :=
  ∀ s t : State, step s = .next t →
    t.stepReg = if s.stepReg = 0#4 then 0#4 else if s.stepReg = 11#4 then 0#4 else s.stepReg + 1#4

/-! ## The Serial Byte Transmitter -/

/-- XFER (R70; the three writes of a bit are the spec's decisions D1 and D2): bit 7 first, each bit on DATA, then CLOCK
high, then CLOCK low; CLOCK left 0, DATA at bit 0, STROBE and everything but SR and BC as before. -/
def Obligations.XferShiftsTheByteOut : Prop :=
  ∀ (b : Byte) (s : State), ∃ t, exec (.xfer b) s = .next t ∧
    t.trace = s.trace ++
      ([.w .data (b.getLsbD 7), .w .clock true, .w .clock false, .w .data (b.getLsbD 6), .w .clock true, .w .clock false,
       .w .data (b.getLsbD 5), .w .clock true, .w .clock false, .w .data (b.getLsbD 4), .w .clock true, .w .clock false,
       .w .data (b.getLsbD 3), .w .clock true, .w .clock false, .w .data (b.getLsbD 2), .w .clock true, .w .clock false,
       .w .data (b.getLsbD 1), .w .clock true, .w .clock false, .w .data (b.getLsbD 0), .w .clock true, .w .clock false] :
        List Event) ∧
    t = { s with
      lines := { s.lines with clock := .level false, data := .level (b.getLsbD 0) }, sr := b, bc := 0#4, log := t.log }

/-- R71: started with CLOCK low, XFER makes 8 rising and 8 falling edges of CLOCK, DATA at the rising edges is bit 7 to
bit 0 in that order, DATA does not change while CLOCK is high, and all it emits is 8 writes to DATA and 16 to CLOCK. XFER acquires nothing, so
it does not matter how acquisitions are seen. -/
def Obligations.XferEdgesCarryTheBits : Prop :=
  ∀ (b : Byte) (s : State) (acq : List AcqEdge), s.lines.clock = .level false → ∃ t es, exec (.xfer b) s = .next t ∧
    t.trace = s.trace ++ es ∧
    transitions .clock acq s.lines es = (List.replicate 8 [true, false]).flatten ∧
    dataAtRisingClock acq s.lines es =
      [.level (b.getLsbD 7), .level (b.getLsbD 6), .level (b.getLsbD 5), .level (b.getLsbD 4),
       .level (b.getLsbD 3), .level (b.getLsbD 2), .level (b.getLsbD 1), .level (b.getLsbD 0)] ∧
    dataStable acq s.lines es = true ∧
    (es.filter fun e => e = .w .data false ∨ e = .w .data true).length = 8 ∧
    (es.filter fun e => e = .w .clock false ∨ e = .w .clock true).length = 16 ∧ es.length = 24

/-! ## The Nibble Framer -/

/-- FRAME (R80): STROBE low, CLOCK low, the byte by XFER, STROBE high. Only the lines, FB, SR and BC change. -/
def Obligations.FrameWrapsTheByteInAStrobe : Prop :=
  ∀ (b : Byte) (s : State), ∃ t, exec (.frame b) s = .next t ∧
    t.trace = s.trace ++ (([.w .strobe false, .w .clock false] : List Event) ++ xferEvents b ++ ([.w .strobe true] : List Event)) ∧
    t = { s with
      lines := { s.lines with strobe := .level true, clock := .level false, data := .level (b.getLsbD 0) },
      fb := b, sr := t.sr, bc := t.bc, log := t.log }

/-- The four frame classes (R51): each sends one frame, its byte the payload in bits 7:4 and the class in bits 3:0. That
the row's meaning is FRAME of that byte is the model's reading (assumption 6). -/
def Obligations.FrameClassesSendTheirFrameByte : Prop :=
  ∀ (p : Nibble) (s : State),
    (∃ t, exec (.frmCmdE1 p) s = .next t ∧ t.trace = s.trace ++ frameEvents (p ++ 0b1000#4) ∧
      t = { s with lines := s.lines.rest false, fb := p ++ 0b1000#4, sr := p ++ 0b1000#4, bc := 0#4, log := t.log }) ∧
    (∃ t, exec (.frmCmdE0 p) s = .next t ∧ t.trace = s.trace ++ frameEvents (p ++ 0b0000#4) ∧
      t = { s with lines := s.lines.rest false, fb := p ++ 0b0000#4, sr := p ++ 0b0000#4, bc := 0#4, log := t.log }) ∧
    (∃ t, exec (.frmChrE1 p) s = .next t ∧ t.trace = s.trace ++ frameEvents (p ++ 0b1010#4) ∧
      t = { s with lines := s.lines.rest false, fb := p ++ 0b1010#4, sr := p ++ 0b1010#4, bc := 0#4, log := t.log }) ∧
    (∃ t, exec (.frmChrE0 p) s = .next t ∧ t.trace = s.trace ++ frameEvents (p ++ 0b0010#4) ∧
      t = { s with lines := s.lines.rest false, fb := p ++ 0b0010#4, sr := p ++ 0b0010#4, bc := 0#4, log := t.log })

/-- NIB (R81): the frame with enable set, then the frame with enable clear, DATA left 0; a value with bit 3, 2 or 0 set
is refused. Only the lines, PH, FB, SR and BC change. -/
def Obligations.NibSendsEnableSetThenClear : Prop :=
  ∀ (x : Byte) (s : State),
    (x &&& 0x0D#8 = 0#8 → ∃ t, exec (.nib x) s = .next t ∧
      t.trace = s.trace ++ (frameEvents (x ||| 0x08#8) ++ frameEvents x) ∧
      t = { s with
        lines := { s.lines with strobe := .level true, clock := .level false, data := .level false },
        ph := 1#1, fb := t.fb, sr := t.sr, bc := t.bc, log := t.log }) ∧
    (x &&& 0x0D#8 ≠ 0#8 → exec (.nib x) s = .refused (.nibNotAdmitted x))

/-! ## The Byte Framer and the delay unit -/

/-- BYTE (R90): the high nibble, the low nibble, then 37 microseconds; a mode other than 0 and 2 is refused. Only the
lines and the working registers change. -/
def Obligations.ByteSendsTwoNibblesThenSettles : Prop :=
  ∀ (m v : Byte) (s : State),
    (m = 0#8 ∨ m = 2#8 → ∃ t, exec (.byte m v) s = .next t ∧
      t.trace = s.trace ++
        (nibEvents ((v &&& 0xF0#8) ||| m) ++ nibEvents (((v <<< 4) &&& 0xF0#8) ||| m) ++ [Event.wait 37]) ∧
      t = { s.withWorking t with
        lines := { s.lines with strobe := .level true, clock := .level false, data := .level false },
        md := m.setWidth 2, val := v, ns := 1#1 }) ∧
    (m ≠ 0#8 → m ≠ 2#8 → exec (.byte m v) s = .refused (.modeNotAdmitted m))

/-- The working registers after FRAME, NIB, BYTE and the command-byte steps, which the statements above and those of S7,
S8 and S10 leave open (the registers are the spec's decision D13; that they keep what the pseudocode of R70, R80, R81, R90
and R92 last put there is the model's, assumption 16): SR and FB the last frame byte, BC 0, PH and NS 1, MD and VAL the
last operands of BYTE, DLY 0. -/
def Obligations.WorkingRegistersKeepTheLastOperands : Prop :=
  ∀ s : State,
    (∀ b, ∃ t, exec (.frame b) s = .next t ∧ t.sr = b ∧ t.bc = 0#4) ∧
    (∀ x, x &&& 0x0D#8 = 0#8 → ∃ t, exec (.nib x) s = .next t ∧ t.fb = x ∧ t.sr = x ∧ t.bc = 0#4) ∧
    (∀ m v, m = 0#8 ∨ m = 2#8 → ∃ t, exec (.byte m v) s = .next t ∧
      t.ph = 1#1 ∧ t.fb = ((v <<< 4) &&& 0xF0#8) ||| m ∧ t.sr = ((v <<< 4) &&& 0xF0#8) ||| m ∧ t.bc = 0#4 ∧ t.dly = 0#13) ∧
    (∃ t, exec .s7 s = .next t ∧ t.md = 0#2 ∧ t.val = 0x01#8 ∧ t.ns = 1#1 ∧ t.ph = 1#1 ∧ t.fb = 0x10#8 ∧
      t.sr = 0x10#8 ∧ t.bc = 0#4 ∧ t.dly = 0#13) ∧
    (∃ t, exec .s8 s = .next t ∧ t.md = 0#2 ∧ t.val = 0x80#8 ∧ t.ns = 1#1 ∧ t.ph = 1#1 ∧ t.fb = 0x00#8 ∧
      t.sr = 0x00#8 ∧ t.bc = 0#4 ∧ t.dly = 0#13) ∧
    (∃ t, exec .s10 s = .next t ∧ t.md = 0#2 ∧ t.val = 0x94#8 ∧ t.ns = 1#1 ∧ t.ph = 1#1 ∧ t.fb = 0x40#8 ∧
      t.sr = 0x40#8 ∧ t.bc = 0#4 ∧ t.dly = 0#13)

/-- The testable property of BYTE (R91), read through the observer of R131 to R134 (the spec's decisions D16 and D20)
from any receiver whatever: four frames, the two nibble values with enable set and clear, then the wait; and the two
nibble writes `(v[7:4], m[1])` and `(v[3:0], m[1])`. -/
def Obligations.ByteIsSeenAsItsTwoNibbles : Prop :=
  ∀ (m v : Byte) (s : State) (r : Receiver), (m = 0#8 ∨ m = 2#8) → ∃ t es, exec (.byte m v) s = .next t ∧
    t.trace = s.trace ++ es ∧
    frames r es =
      [.frame (((v &&& 0xF0#8) ||| m) ||| 0x08#8), .frame ((v &&& 0xF0#8) ||| m),
       .frame ((((v <<< 4) &&& 0xF0#8) ||| m) ||| 0x08#8), .frame (((v <<< 4) &&& 0xF0#8) ||| m), .wait 37] ∧
    nibbles (frames r es) =
      [.nibble (v.extractLsb' 4 4) (m.getLsbD 1), .nibble (v.extractLsb' 0 4) (m.getLsbD 1), .wait 37]

/-- DELAY (R92; D8): one `Wait(n)`, no line driven, DLY at 0 when it ends, everything else as before. -/
def Obligations.DelayEmitsOneWait : Prop :=
  ∀ (n : BitVec 13) (s : State), ∃ t, exec (.delay n) s = .next t ∧ t.trace = s.trace ++ [Event.wait n.toNat] ∧
    t = { s with dly := 0#13, log := t.log }

/-! ## Acquisition and the sequencer's steps -/

/-- ACQ (R100; the order and the open levels are the spec's decision D6, the bindings are the model's fields, assumption
17): four acquisition events and no write, the latches at the initial levels whatever they were, all four lines bound. -/
def Obligations.AcqDrivesInitialLevels : Prop :=
  ∀ s : State, ∃ t, exec .acq s = .next t ∧
    t.trace = s.trace ++
      ([.acqOut .strobe s.params.pinStrobe s.params.initStrobe, .acqOut .clock s.params.pinClock s.params.initClock,
       .acqOut .data s.params.pinData s.params.initData, .acqIn s.params.pinUnused s.params.pullUnused] :
        List Event) ∧
    t = { s with
      lines :=
        { strobe := .level s.params.initStrobe, clock := .level s.params.initClock, data := .level s.params.initData,
          strobePin := .output s.params.pinStrobe, clockPin := .output s.params.pinClock,
          dataPin := .output s.params.pinData, unusedPin := .input s.params.pinUnused s.params.pullUnused },
      log := t.log }

/-- S1 (R109): ACQ, the four events of R100, and nothing else. -/
def Obligations.FirstStepIsAcquisition : Prop :=
  ∀ s : State, exec .s1 s = exec .acq s ∧ ∃ t, exec .s1 s = .next t ∧ t.trace = s.trace ++ acqEvents s.params ∧
    t = { s with lines := Lines.acquired s.params, log := t.log }

/-- S2 (R110; one frame and not a nibble send is the spec's decision D4): the frame 0x00, after which STROBE is 1, CLOCK
0, DATA 0 and the receiver presents 0x00, whatever levels and receiver it started from. -/
def Obligations.SyncStepSendsTheZeroFrame : Prop :=
  ∀ s : State, s.sessionMode = 0#2 → ∃ t, exec .s2 s = .next t ∧ t.trace = s.trace ++ frameEvents 0x00#8 ∧
    t = { s with
      lines := { s.lines with strobe := .level true, clock := .level false, data := .level false },
      fb := 0x00#8, sr := 0x00#8, bc := 0#4, log := t.log } ∧
    ∀ r : Receiver, (r.run (frameEvents 0x00#8)).rout = 0x00#8

/-- S3 to S6 (R111 to R114; single nibble sends in command mode are the spec's decision D5): frames 0x38, 0x30 and 4500
microseconds; 0x38, 0x30 and 150; 0x38, 0x30 and no delay; 0x28, 0x20 and no delay. -/
def Obligations.SingleNibbleStepsSendTheirFrames : Prop :=
  ∀ s : State, s.sessionMode = 0#2 →
    (∃ t, exec .s3 s = .next t ∧ t.trace = s.trace ++ (frameEvents 0x38#8 ++ frameEvents 0x30#8 ++ [Event.wait 4500]) ∧
      t = { s with
        lines := s.lines.rest false, ph := 1#1, fb := 0x30#8, sr := 0x30#8, bc := 0#4, dly := 0#13, log := t.log }) ∧
    (∃ t, exec .s4 s = .next t ∧ t.trace = s.trace ++ (frameEvents 0x38#8 ++ frameEvents 0x30#8 ++ [Event.wait 150]) ∧
      t = { s with
        lines := s.lines.rest false, ph := 1#1, fb := 0x30#8, sr := 0x30#8, bc := 0#4, dly := 0#13, log := t.log }) ∧
    (∃ t, exec .s5 s = .next t ∧ t.trace = s.trace ++ (frameEvents 0x38#8 ++ frameEvents 0x30#8) ∧
      t = { s with lines := s.lines.rest false, ph := 1#1, fb := 0x30#8, sr := 0x30#8, bc := 0#4, log := t.log }) ∧
    (∃ t, exec .s6 s = .next t ∧ t.trace = s.trace ++ (frameEvents 0x28#8 ++ frameEvents 0x20#8) ∧
      t = { s with lines := s.lines.rest false, ph := 1#1, fb := 0x20#8, sr := 0x20#8, bc := 0#4, log := t.log })

/-- S7 (R115): the four configuration bytes in command mode, each with its own 37 microseconds, then 2000 once. -/
def Obligations.ConfigurationStepSendsFourBytes : Prop :=
  ∀ s : State, ∃ t, exec .s7 s = .next t ∧
    t.trace = s.trace ++
      (byteEvents 0#8 0x28#8 ++ byteEvents 0#8 0x06#8 ++ byteEvents 0#8 0x0C#8 ++ byteEvents 0#8 0x01#8 ++
        [Event.wait 2000]) ∧
    t = { s.withWorking t with lines := s.lines.rest false, idx := 4#5 }

/-- S8 and S10 (R116, R118): the cursor commands 0x80 and 0x80 + 20 = 0x94 in command mode. -/
def Obligations.CursorStepsSendTheirCommands : Prop :=
  ∀ s : State,
    (∃ t, exec .s8 s = .next t ∧ t.trace = s.trace ++ byteEvents 0#8 0x80#8 ∧
      t = { s.withWorking t with lines := s.lines.rest false }) ∧
    (∃ t, exec .s10 s = .next t ∧ t.trace = s.trace ++ byteEvents 0#8 (0x80#8 + 20#8) ∧
      t = { s.withWorking t with lines := s.lines.rest false })

/-- S9 (R117): exactly 20 bytes, the bytes of BANNER in index order, in character mode, with no terminator test. IDX ends
at 20; besides it only the lines, the working registers (R18) and the trace change. -/
def Obligations.BannerStepSendsTwentyCharacters : Prop :=
  ∀ s : State, ∃ t, exec .s9 s = .next t ∧
    t.trace = s.trace ++ banner.flatMap (byteEvents 2#8) ∧ banner.length = 20 ∧
    t.lines = s.lines.rest false ∧ t.idx = 20#5 ∧ t.stepReg = s.stepReg ∧ t.sessionMode = s.sessionMode ∧
    t.version = s.version ∧ t.params = s.params ∧ t.requests = s.requests

/-- BANNER's bytes (R31): the ASCII codes of "ZYYX klipper startup", which the spec takes from general knowledge (G1, D9;
PRESUMED, assumption 18). -/
def Obligations.BannerHoldsItsCharacterCodes : Prop :=
  banner.map (fun b => Char.ofNat b.toNat) = "ZYYX klipper startup".toList

/-- S11 (R119): the characters of VERSION in character mode, up to its terminator or 20, whichever comes first, the
terminator not sent. IDX ends at their number; besides it only the lines, the working registers (R18) and the trace
change, and with no character nothing but IDX. -/
def Obligations.VersionStepSendsUpToTheTerminator : Prop :=
  ∀ (s : State) (cs : List Byte), s.VersionIs cs → ∃ t, exec .s11 s = .next t ∧
    t.trace = s.trace ++ cs.flatMap (byteEvents 2#8) ∧
    t.lines = (if cs = [] then s.lines else s.lines.rest false) ∧ t.idx = BitVec.ofNat 5 cs.length ∧
    t.stepReg = s.stepReg ∧ t.sessionMode = s.sessionMode ∧ t.version = s.version ∧ t.params = s.params ∧
    t.requests = s.requests ∧ (cs = [] → t = { s with idx := 0#5 })

/-- S11 where the environment has not kept its duty (U9, R162): reaching an index below 20 that cannot be read, every
lower one being a character, it is refused under that index (assumption 3). -/
def Obligations.UnreadableVersionIsRefused : Prop :=
  ∀ (s : State) (k : Nat), k < 20 → cellRead s.version k = none →
    (∀ i < k, ∃ c, cellRead s.version i = some c ∧ c ≠ 0x00#8) →
    exec .s11 s = .refused (.storeUnreadable .version k)

/-- R33 (D10): S11 and BOOT read no index of VERSION but 0 to the terminator's, and none of 20 or more. Two states that
agree there and differ anywhere else in VERSION run alike, and the rest of VERSION is as it was. -/
def Obligations.VersionBeyondTheTerminatorIsNotRead : Prop :=
  ∀ (s : State) (cs : List Byte) (v : List Host.Cell), s.VersionIs cs →
    (∀ i, i ≤ cs.length → i < 20 → cellRead v i = cellRead s.version i) →
    (∃ t, exec .s11 s = .next t ∧ exec .s11 { s with version := v } = .next { t with version := v }) ∧
    (s.stepReg = 0#4 →
      ∃ t, exec .boot s = .next t ∧ exec .boot { s with version := v } = .next { t with version := v })

/-! ## BOOT -/

/-- BOOT (R101, R102; D4, D5, D6, D17): invoked with STEP 0 it runs to its end and returns. Its trace is the whole event
list of R102; it leaves STROBE 1, CLOCK 0, DATA 0 on owned lines (R161), STEP 0 and IDX the number of version characters.
Besides these only the working registers (R18) change. -/
def Obligations.BootEmitsTheWholeSequence : Prop :=
  ∀ (s : State) (cs : List Byte), s.stepReg = 0#4 → s.sessionMode = 0#2 → s.VersionIs cs →
    ∃ t, exec .boot s = .next t ∧ t.trace = s.trace ++ bootEvents s.params cs ∧
      t.lines = (Lines.acquired s.params).rest false ∧ t.stepReg = 0#4 ∧ t.idx = BitVec.ofNat 5 cs.length ∧
      t.sessionMode = s.sessionMode ∧ t.version = s.version ∧ t.params = s.params ∧ t.requests = s.requests

/-- Invoking BOOT while STEP is not 0 is outside the spec (R101, R152) and refused (assumption 13). -/
def Obligations.BootWhileBusyIsRefused : Prop :=
  ∀ s : State, s.stepReg ≠ 0#4 → exec .boot s = .refused .bootWhileBusy

/-- BOOT as one operation and the sequencer stepped by STEP are the same machine (R16, R57, R101; D13, D17): from STEP 1,
eleven steps end exactly where BOOT ends, in the same state or the same refusal. That both are given is the model's choice
(assumption 1). -/
def Obligations.BootIsElevenSequencerSteps : Prop :=
  ∀ s : State, s.stepReg = 0#4 → core.run 11 { s with stepReg := 1#4 } = exec .boot s

/-- R105 (D11): BOOT invoked again after it returned emits the identical event list, acquisition included. -/
def Obligations.SecondBootRepeatsTheTrace : Prop :=
  ∀ (s : State) (cs : List Byte), s.stepReg = 0#4 → s.sessionMode = 0#2 → s.VersionIs cs →
    ∃ t u, exec .boot s = .next t ∧ exec .boot t = .next u ∧
      t.trace = s.trace ++ bootEvents s.params cs ∧
      u.trace = s.trace ++ (bootEvents s.params cs ++ bootEvents s.params cs) ∧ u.lines = t.lines ∧ u.idx = t.idx

/-- R104 and R169: a run that sends n version characters emits 4 acquisitions, 3051 + 108n writes and 29 + n waits, which
sum to 7612 + 37n microseconds at least. -/
def Obligations.BootCountsAndDuration : Prop :=
  ∀ (s : State) (cs : List Byte), s.stepReg = 0#4 → s.sessionMode = 0#2 → s.VersionIs cs →
    ∃ t es, exec .boot s = .next t ∧ t.trace = s.trace ++ es ∧
      (es.filter Event.isAcquisition).length = 4 ∧ (es.filter Event.isWrite).length = 3051 + 108 * cs.length ∧
      (es.filter Event.isWait).length = 29 + cs.length ∧ es.length = 3084 + 109 * cs.length ∧
      waitSum es = 7612 + 37 * cs.length

/-- R106: steps 3 to 8 send 0x30, 0x30, 0x30, 0x20 as nibbles and 0x28, 0x06, 0x0C, 0x01, 0x80 as command bytes, in that
order, with 4500, 150 and 2000 microseconds at their places and no other delay but the 37 of each byte. -/
def Obligations.FixedCommandSequenceOfStepsThreeToEight : Prop :=
  ∀ s : State, s.stepReg = 3#4 → s.sessionMode = 0#2 → ∃ t, core.run 6 s = .next t ∧ t.stepReg = 9#4 ∧
    t.trace = s.trace ++
      (nibEvents 0x30#8 ++ [Event.wait 4500] ++ nibEvents 0x30#8 ++ [Event.wait 150] ++ nibEvents 0x30#8 ++ nibEvents 0x20#8 ++
        byteEvents 0#8 0x28#8 ++ byteEvents 0#8 0x06#8 ++ byteEvents 0#8 0x0C#8 ++ byteEvents 0#8 0x01#8 ++ [Event.wait 2000] ++
        byteEvents 0#8 0x80#8)

/-! ## What an observer sees -/

/-- R133 (D16): from any receiver, FRAME b is read as the one frame b, and the outputs then hold b (R132). -/
def Obligations.FrameIsSeenAsOneFrame : Prop :=
  ∀ (b : Byte) (s : State) (r : Receiver), ∃ t es, exec (.frame b) s = .next t ∧ t.trace = s.trace ++ es ∧
    frames r es = [.frame b] ∧ (r.run es).rout = b

/-- R82, R134 (D16, D20): from any receiver, NIB x is read as the two frames `x | 0x08`, `x`, and as one nibble write of
payload x[7:4] and mode x[1]. -/
def Obligations.NibIsSeenAsOneNibbleWrite : Prop :=
  ∀ (x : Byte) (s : State) (r : Receiver), x &&& 0x0D#8 = 0#8 → ∃ t es, exec (.nib x) s = .next t ∧
    t.trace = s.trace ++ es ∧ frames r es = [.frame (x ||| 0x08#8), .frame x] ∧
    nibbles (frames r es) = [.nibble (x.extractLsb' 4 4) (x.getLsbD 1)]

/-- R130, R105 (D6, D11): however acquisitions are seen and from whatever lines, the waveform of a run of BOOT is that of
its four acquisitions followed by one and the same list. So two runs with one VERSION can differ in the edges their
acquisitions make and in nothing else. -/
def Obligations.BootWaveformDiffersOnlyAtAcquisition : Prop :=
  ∀ (s : State) (cs : List Byte), s.stepReg = 0#4 → s.sessionMode = 0#2 → s.VersionIs cs →
    ∃ t es tail, exec .boot s = .next t ∧ t.trace = s.trace ++ es ∧
      ∀ (acq : List AcqEdge) (ls : Lines), waveform acq ls es = waveform acq ls (acqEvents s.params) ++ tail

/-- R130, R163 (D6; assumption 14): each acquisition of an output is seen as `acq` says, as no transition, a rising or a
falling one, whatever the lines were and whatever the initial levels are; the unused input makes none. -/
def Obligations.AcquisitionIsSeenAsAnyEdge : Prop :=
  ∀ (s : State) (x y z : AcqEdge) (acq : List AcqEdge) (ls : Lines), ∃ t es, exec .acq s = .next t ∧
    t.trace = s.trace ++ es ∧
    waveform (x :: y :: z :: acq) ls es =
      (x.map (WaveItem.edge .strobe)).toList ++ (y.map (WaveItem.edge .clock)).toList ++
        (z.map (WaveItem.edge .data)).toList

/-- R163, R133, R136 (D4, D5, D6, D16, D20): nothing is assumed of how acquisitions are seen. A run of BOOT is seen, from
any receiver, as at most one frame of unspecified value that the acquisition of STROBE added, the frame 0x00 of S2, and
then the same list for every receiver: the command nibbles 3, 3, 3, 2, the command bytes 28 06 0C 01 80, the 20 banner
characters, the command byte 94 and the n version characters, with 4500, 150 and 2000 microseconds at their places and 37
after every byte. Where that acquisition is no rising edge, that list is all that is seen of the run. -/
def Obligations.BootIsSeenAsItsBytes : Prop :=
  ∀ (s : State) (cs : List Byte), s.stepReg = 0#4 → s.sessionMode = 0#2 → s.VersionIs cs →
    ∃ t es rest, exec .boot s = .next t ∧ t.trace = s.trace ++ es ∧
      bytesAfter 4 (nibbles rest) =
        ([.nibble 3#4 false, .wait 4500, .nibble 3#4 false, .wait 150, .nibble 3#4 false, .nibble 2#4 false,
         .byte 0x28#8 false, .wait 37, .byte 0x06#8 false, .wait 37, .byte 0x0C#8 false, .wait 37,
         .byte 0x01#8 false, .wait 37, .wait 2000, .byte 0x80#8 false, .wait 37] :
          List ByteItem) ++
        textSeen banner ++ ([.byte 0x94#8 false, .wait 37] : List ByteItem) ++ textSeen cs ∧
      ∀ r : Receiver,
        frames r es =
          (if r.acq.headD none = some true then [FrameItem.frame r.rsh] else []) ++ .frame 0x00#8 :: rest ∧
        (r.acq.headD none ≠ some true → bytesSeen r es = bytesAfter 4 (nibbles rest))

/-- R135 (D16): after BOOT the receiver's outputs are the last byte's low-nibble frame with enable clear: 0x40 when no
character was sent, else `((c << 4) & 0xF0) | 2` for the last character c. -/
def Obligations.OutputsRestAtTheLastFrame : Prop :=
  ∀ (s : State) (cs : List Byte) (r : Receiver), s.stepReg = 0#4 → s.sessionMode = 0#2 → s.VersionIs cs →
    ∃ t es, exec .boot s = .next t ∧ t.trace = s.trace ++ es ∧
      (r.run es).rout = (match cs.getLast? with
        | none => 0x40#8
        | some c => ((c <<< 4) &&& 0xF0#8) ||| 0x02#8)

/-! ## Reset and invariants -/

/-- The state before the first BOOT (R24, R160; D14): lines unacquired and unbound, STEP, IDX and SESSION.mode 0, the trace
empty. Of the working registers, which R24 leaves unspecified, nothing is said. -/
def Obligations.ResetLeavesTheLinesUnacquired : Prop :=
  State.reset.lines.strobe = .unacquired ∧ State.reset.lines.clock = .unacquired ∧
  State.reset.lines.data = .unacquired ∧ State.reset.lines.unusedPin = .unbound ∧ State.reset.stepReg = 0#4 ∧
  State.reset.idx = 0#5 ∧ State.reset.sessionMode = 0#2 ∧ State.reset.trace = []

/-- The invariant holds at reset. For BC, DLY and MD it uses the reset values the model chose (assumption 2). -/
def Obligations.ResetMeetsTheInvariant : Prop := State.reset.Inv

/-- Every step keeps the control registers legal (R15 to R18): SESSION.mode 0, STEP 0 to 11, IDX 0 to 20, MD 0 or 2, and
no bit or microsecond left over between operations. -/
def Obligations.StepKeepsRegistersLegal : Prop :=
  ∀ s t : State, s.RegistersLegal → step s = .next t → t.RegistersLegal

/-- Every step keeps the lines what the trace makes of unacquired lines: a latch holds the level last written or acquired
and nothing else moves it (R10, R20, R130). -/
def Obligations.StepKeepsLinesFollowingTheTrace : Prop :=
  ∀ s t : State, s.LinesFollowTrace → step s = .next t → t.LinesFollowTrace

/-- In such a state each latch is the level R130 reads off the trace, or `unacquired` when there is none. -/
def Obligations.LatchIsTheLastLevelInTheTrace : Prop :=
  ∀ (s : State) (l : Line), s.LinesFollowTrace → s.lines.latch l = levelAfter l .unacquired s.trace

/-- Ownership (R12; the binding fields are the model's, assumption 17): every step keeps each line unbound or on its own
physical line, and a line once bound is never released or bound to another. -/
def Obligations.BoundLinesAreNeverReleased : Prop :=
  ∀ s t : State, s.LinesOwned → step s = .next t → t.LinesOwned ∧ s.lines.KeptBy t.lines

/-- R23: no step writes VERSION, the pin identifiers, the initial levels or the pull mode, nor SESSION.mode (R15); so
VERSION stays in canonical form and reads the same at every index. -/
def Obligations.StepWritesNoStoreAndNoParameter : Prop :=
  ∀ s t : State, step s = .next t →
    t.version = s.version ∧ t.params = s.params ∧ t.sessionMode = s.sessionMode ∧
    (∀ i, cellRead t.version i = cellRead s.version i) ∧ (s.VersionCanonical → t.VersionCanonical)

/-- The trace is never cleared and never rewritten: what a step has emitted follows what was there (R20, R40; D3). -/
def Obligations.TraceOnlyGrows : Prop :=
  ∀ s t : State, step s = .next t → s.trace <+: t.trace

/-- R140, R101: every operation answers a next state for every operand R59 admits. Two need more, as the spec asks it:
BOOT an idle machine, and BOOT and S11 a readable VERSION (R162). -/
def Obligations.AdmittedOperandsAlwaysComplete : Prop :=
  ∀ (i : Instr) (s : State), i.wellFormed = true → (i = .boot → s.stepReg = 0#4) →
    (i = .boot ∨ i = .s11 → ∃ cs, s.VersionIs cs) → ∃ t, exec i s = .next t

/-- No instruction but ACQ, S1 and BOOT changes what a line is bound to (R12, R100; the binding fields are the model's,
assumption 17). -/
def Obligations.OnlyAcquisitionBinds : Prop :=
  ∀ (i : Instr) (s t : State), i ≠ .acq → i ≠ .s1 → i ≠ .boot → exec i s = .next t →
    t.lines.strobePin = s.lines.strobePin ∧ t.lines.clockPin = s.lines.clockPin ∧
    t.lines.dataPin = s.lines.dataPin ∧ t.lines.unusedPin = s.lines.unusedPin
end

