-- ==== Sys2Proof/Laws/State.lean ====
section
/-! SUPPORT. One lemma per field per named update of the state, so that no later proof unfolds a record update. -/

namespace Sys2Proof.Machine

variable (s : State)

/-! ### emit -/

@[simp] theorem State.emit_lines (e : Event) : (s.emit e).lines = s.lines.apply e := rfl
@[simp] theorem State.emit_sessionMode (e : Event) : (s.emit e).sessionMode = s.sessionMode := rfl
@[simp] theorem State.emit_stepReg (e : Event) : (s.emit e).stepReg = s.stepReg := rfl
@[simp] theorem State.emit_idx (e : Event) : (s.emit e).idx = s.idx := rfl
@[simp] theorem State.emit_sr (e : Event) : (s.emit e).sr = s.sr := rfl
@[simp] theorem State.emit_bc (e : Event) : (s.emit e).bc = s.bc := rfl
@[simp] theorem State.emit_fb (e : Event) : (s.emit e).fb = s.fb := rfl
@[simp] theorem State.emit_ph (e : Event) : (s.emit e).ph = s.ph := rfl
@[simp] theorem State.emit_val (e : Event) : (s.emit e).val = s.val := rfl
@[simp] theorem State.emit_md (e : Event) : (s.emit e).md = s.md := rfl
@[simp] theorem State.emit_ns (e : Event) : (s.emit e).ns = s.ns := rfl
@[simp] theorem State.emit_dly (e : Event) : (s.emit e).dly = s.dly := rfl
@[simp] theorem State.emit_version (e : Event) : (s.emit e).version = s.version := rfl
@[simp] theorem State.emit_params (e : Event) : (s.emit e).params = s.params := rfl
@[simp] theorem State.emit_requests (e : Event) : (s.emit e).requests = s.requests := rfl
@[simp] theorem State.emit_log (e : Event) : (s.emit e).log = e :: s.log := rfl

/-! ### drive -/

@[simp] theorem State.drive_lines (l : Line) (v : Level) : (s.drive l v).lines = s.lines.setLevel l v := rfl
@[simp] theorem State.drive_sessionMode (l : Line) (v : Level) : (s.drive l v).sessionMode = s.sessionMode := rfl
@[simp] theorem State.drive_stepReg (l : Line) (v : Level) : (s.drive l v).stepReg = s.stepReg := rfl
@[simp] theorem State.drive_idx (l : Line) (v : Level) : (s.drive l v).idx = s.idx := rfl
@[simp] theorem State.drive_sr (l : Line) (v : Level) : (s.drive l v).sr = s.sr := rfl
@[simp] theorem State.drive_bc (l : Line) (v : Level) : (s.drive l v).bc = s.bc := rfl
@[simp] theorem State.drive_fb (l : Line) (v : Level) : (s.drive l v).fb = s.fb := rfl
@[simp] theorem State.drive_ph (l : Line) (v : Level) : (s.drive l v).ph = s.ph := rfl
@[simp] theorem State.drive_val (l : Line) (v : Level) : (s.drive l v).val = s.val := rfl
@[simp] theorem State.drive_md (l : Line) (v : Level) : (s.drive l v).md = s.md := rfl
@[simp] theorem State.drive_ns (l : Line) (v : Level) : (s.drive l v).ns = s.ns := rfl
@[simp] theorem State.drive_dly (l : Line) (v : Level) : (s.drive l v).dly = s.dly := rfl
@[simp] theorem State.drive_version (l : Line) (v : Level) : (s.drive l v).version = s.version := rfl
@[simp] theorem State.drive_params (l : Line) (v : Level) : (s.drive l v).params = s.params := rfl
@[simp] theorem State.drive_requests (l : Line) (v : Level) : (s.drive l v).requests = s.requests := rfl
@[simp] theorem State.drive_log (l : Line) (v : Level) : (s.drive l v).log = .w l v :: s.log := rfl

/-! ### setStep -/

@[simp] theorem State.setStep_lines (n : BitVec 4) : (s.setStep n).lines = s.lines := rfl
@[simp] theorem State.setStep_sessionMode (n : BitVec 4) : (s.setStep n).sessionMode = s.sessionMode := rfl
@[simp] theorem State.setStep_stepReg (n : BitVec 4) : (s.setStep n).stepReg = n := rfl
@[simp] theorem State.setStep_idx (n : BitVec 4) : (s.setStep n).idx = s.idx := rfl
@[simp] theorem State.setStep_sr (n : BitVec 4) : (s.setStep n).sr = s.sr := rfl
@[simp] theorem State.setStep_bc (n : BitVec 4) : (s.setStep n).bc = s.bc := rfl
@[simp] theorem State.setStep_fb (n : BitVec 4) : (s.setStep n).fb = s.fb := rfl
@[simp] theorem State.setStep_ph (n : BitVec 4) : (s.setStep n).ph = s.ph := rfl
@[simp] theorem State.setStep_val (n : BitVec 4) : (s.setStep n).val = s.val := rfl
@[simp] theorem State.setStep_md (n : BitVec 4) : (s.setStep n).md = s.md := rfl
@[simp] theorem State.setStep_ns (n : BitVec 4) : (s.setStep n).ns = s.ns := rfl
@[simp] theorem State.setStep_dly (n : BitVec 4) : (s.setStep n).dly = s.dly := rfl
@[simp] theorem State.setStep_version (n : BitVec 4) : (s.setStep n).version = s.version := rfl
@[simp] theorem State.setStep_params (n : BitVec 4) : (s.setStep n).params = s.params := rfl
@[simp] theorem State.setStep_requests (n : BitVec 4) : (s.setStep n).requests = s.requests := rfl
@[simp] theorem State.setStep_log (n : BitVec 4) : (s.setStep n).log = s.log := rfl

/-! ### setIdx -/

@[simp] theorem State.setIdx_lines (n : BitVec 5) : (s.setIdx n).lines = s.lines := rfl
@[simp] theorem State.setIdx_sessionMode (n : BitVec 5) : (s.setIdx n).sessionMode = s.sessionMode := rfl
@[simp] theorem State.setIdx_stepReg (n : BitVec 5) : (s.setIdx n).stepReg = s.stepReg := rfl
@[simp] theorem State.setIdx_idx (n : BitVec 5) : (s.setIdx n).idx = n := rfl
@[simp] theorem State.setIdx_sr (n : BitVec 5) : (s.setIdx n).sr = s.sr := rfl
@[simp] theorem State.setIdx_bc (n : BitVec 5) : (s.setIdx n).bc = s.bc := rfl
@[simp] theorem State.setIdx_fb (n : BitVec 5) : (s.setIdx n).fb = s.fb := rfl
@[simp] theorem State.setIdx_ph (n : BitVec 5) : (s.setIdx n).ph = s.ph := rfl
@[simp] theorem State.setIdx_val (n : BitVec 5) : (s.setIdx n).val = s.val := rfl
@[simp] theorem State.setIdx_md (n : BitVec 5) : (s.setIdx n).md = s.md := rfl
@[simp] theorem State.setIdx_ns (n : BitVec 5) : (s.setIdx n).ns = s.ns := rfl
@[simp] theorem State.setIdx_dly (n : BitVec 5) : (s.setIdx n).dly = s.dly := rfl
@[simp] theorem State.setIdx_version (n : BitVec 5) : (s.setIdx n).version = s.version := rfl
@[simp] theorem State.setIdx_params (n : BitVec 5) : (s.setIdx n).params = s.params := rfl
@[simp] theorem State.setIdx_requests (n : BitVec 5) : (s.setIdx n).requests = s.requests := rfl
@[simp] theorem State.setIdx_log (n : BitVec 5) : (s.setIdx n).log = s.log := rfl

/-! ### loadVersion -/

@[simp] theorem State.loadVersion_lines (bs : List Byte) : (s.loadVersion bs).lines = s.lines := rfl
@[simp] theorem State.loadVersion_sessionMode (bs : List Byte) : (s.loadVersion bs).sessionMode = s.sessionMode := rfl
@[simp] theorem State.loadVersion_stepReg (bs : List Byte) : (s.loadVersion bs).stepReg = s.stepReg := rfl
@[simp] theorem State.loadVersion_idx (bs : List Byte) : (s.loadVersion bs).idx = s.idx := rfl
@[simp] theorem State.loadVersion_sr (bs : List Byte) : (s.loadVersion bs).sr = s.sr := rfl
@[simp] theorem State.loadVersion_bc (bs : List Byte) : (s.loadVersion bs).bc = s.bc := rfl
@[simp] theorem State.loadVersion_fb (bs : List Byte) : (s.loadVersion bs).fb = s.fb := rfl
@[simp] theorem State.loadVersion_ph (bs : List Byte) : (s.loadVersion bs).ph = s.ph := rfl
@[simp] theorem State.loadVersion_val (bs : List Byte) : (s.loadVersion bs).val = s.val := rfl
@[simp] theorem State.loadVersion_md (bs : List Byte) : (s.loadVersion bs).md = s.md := rfl
@[simp] theorem State.loadVersion_ns (bs : List Byte) : (s.loadVersion bs).ns = s.ns := rfl
@[simp] theorem State.loadVersion_dly (bs : List Byte) : (s.loadVersion bs).dly = s.dly := rfl
@[simp] theorem State.loadVersion_version (bs : List Byte) : (s.loadVersion bs).version = cellLoad [] 0 bs := rfl
@[simp] theorem State.loadVersion_params (bs : List Byte) : (s.loadVersion bs).params = s.params := rfl
@[simp] theorem State.loadVersion_requests (bs : List Byte) : (s.loadVersion bs).requests = s.requests := rfl
@[simp] theorem State.loadVersion_log (bs : List Byte) : (s.loadVersion bs).log = s.log := rfl

/-! ### advance -/

@[simp] theorem State.advance_lines : (s.advance).lines = s.lines := rfl
@[simp] theorem State.advance_sessionMode : (s.advance).sessionMode = s.sessionMode := rfl
@[simp] theorem State.advance_stepReg : (s.advance).stepReg = if s.stepReg = 11#4 then 0#4 else s.stepReg + 1#4 := rfl
@[simp] theorem State.advance_idx : (s.advance).idx = s.idx := rfl
@[simp] theorem State.advance_sr : (s.advance).sr = s.sr := rfl
@[simp] theorem State.advance_bc : (s.advance).bc = s.bc := rfl
@[simp] theorem State.advance_fb : (s.advance).fb = s.fb := rfl
@[simp] theorem State.advance_ph : (s.advance).ph = s.ph := rfl
@[simp] theorem State.advance_val : (s.advance).val = s.val := rfl
@[simp] theorem State.advance_md : (s.advance).md = s.md := rfl
@[simp] theorem State.advance_ns : (s.advance).ns = s.ns := rfl
@[simp] theorem State.advance_dly : (s.advance).dly = s.dly := rfl
@[simp] theorem State.advance_version : (s.advance).version = s.version := rfl
@[simp] theorem State.advance_params : (s.advance).params = s.params := rfl
@[simp] theorem State.advance_requests : (s.advance).requests = s.requests := rfl
@[simp] theorem State.advance_log : (s.advance).log = s.log := rfl

/-! ### after -/

@[simp] theorem State.after_lines (es : List Event) : (s.after es).lines = s.lines.replay es := rfl
@[simp] theorem State.after_sessionMode (es : List Event) : (s.after es).sessionMode = s.sessionMode := rfl
@[simp] theorem State.after_stepReg (es : List Event) : (s.after es).stepReg = s.stepReg := rfl
@[simp] theorem State.after_idx (es : List Event) : (s.after es).idx = s.idx := rfl
@[simp] theorem State.after_sr (es : List Event) : (s.after es).sr = s.sr := rfl
@[simp] theorem State.after_bc (es : List Event) : (s.after es).bc = s.bc := rfl
@[simp] theorem State.after_fb (es : List Event) : (s.after es).fb = s.fb := rfl
@[simp] theorem State.after_ph (es : List Event) : (s.after es).ph = s.ph := rfl
@[simp] theorem State.after_val (es : List Event) : (s.after es).val = s.val := rfl
@[simp] theorem State.after_md (es : List Event) : (s.after es).md = s.md := rfl
@[simp] theorem State.after_ns (es : List Event) : (s.after es).ns = s.ns := rfl
@[simp] theorem State.after_dly (es : List Event) : (s.after es).dly = s.dly := rfl
@[simp] theorem State.after_version (es : List Event) : (s.after es).version = s.version := rfl
@[simp] theorem State.after_params (es : List Event) : (s.after es).params = s.params := rfl
@[simp] theorem State.after_requests (es : List Event) : (s.after es).requests = s.requests := rfl
@[simp] theorem State.after_log (es : List Event) : (s.after es).log = es.reverse ++ s.log := rfl

/-! ### wait -/

@[simp] theorem State.wait_lines (n : BitVec 13) : (s.wait n).lines = s.lines := rfl
@[simp] theorem State.wait_sessionMode (n : BitVec 13) : (s.wait n).sessionMode = s.sessionMode := rfl
@[simp] theorem State.wait_stepReg (n : BitVec 13) : (s.wait n).stepReg = s.stepReg := rfl
@[simp] theorem State.wait_idx (n : BitVec 13) : (s.wait n).idx = s.idx := rfl
@[simp] theorem State.wait_sr (n : BitVec 13) : (s.wait n).sr = s.sr := rfl
@[simp] theorem State.wait_bc (n : BitVec 13) : (s.wait n).bc = s.bc := rfl
@[simp] theorem State.wait_fb (n : BitVec 13) : (s.wait n).fb = s.fb := rfl
@[simp] theorem State.wait_ph (n : BitVec 13) : (s.wait n).ph = s.ph := rfl
@[simp] theorem State.wait_val (n : BitVec 13) : (s.wait n).val = s.val := rfl
@[simp] theorem State.wait_md (n : BitVec 13) : (s.wait n).md = s.md := rfl
@[simp] theorem State.wait_ns (n : BitVec 13) : (s.wait n).ns = s.ns := rfl
@[simp] theorem State.wait_dly (n : BitVec 13) : (s.wait n).dly = 0#13 := rfl
@[simp] theorem State.wait_version (n : BitVec 13) : (s.wait n).version = s.version := rfl
@[simp] theorem State.wait_params (n : BitVec 13) : (s.wait n).params = s.params := rfl
@[simp] theorem State.wait_requests (n : BitVec 13) : (s.wait n).requests = s.requests := rfl
@[simp] theorem State.wait_log (n : BitVec 13) : (s.wait n).log = .wait n.toNat :: s.log := rfl

/-! ### The trace -/

@[simp] theorem State.emit_trace (e : Event) : (s.emit e).trace = s.trace ++ [e] := by simp [State.trace]

@[simp] theorem State.setStep_trace (n : BitVec 4) : (s.setStep n).trace = s.trace := rfl

@[simp] theorem State.setIdx_trace (n : BitVec 5) : (s.setIdx n).trace = s.trace := rfl

@[simp] theorem State.advance_trace : s.advance.trace = s.trace := rfl

@[simp] theorem State.wait_trace (n : BitVec 13) : (s.wait n).trace = s.trace ++ [.wait n.toNat] := by
  simp [State.trace]

@[simp] theorem State.reset_trace : State.reset.trace = [] := rfl

@[simp] theorem State.trace_after (es : List Event) : (s.after es).trace = s.trace ++ es := by
  simp [State.trace]

@[simp] theorem State.after_nil : s.after [] = s := rfl

theorem State.after_append (as bs : List Event) : (s.after as).after bs = s.after (as ++ bs) := by
  simp [State.after, Lines.replay, List.foldl_append]

/-- `emit` is `after` for one event. -/
theorem State.emit_eq_after (e : Event) : s.emit e = s.after [e] := rfl

end Sys2Proof.Machine
end

