-- ==== Sys2Proof/Laws/Lines.lean ====
section
/-! SUPPORT. What events do to the lines: replay over lists, and the levels after a frame. -/

namespace Sys2Proof.Machine

@[simp] theorem Lines.replay_nil (ls : Lines) : ls.replay [] = ls := rfl

@[simp] theorem Lines.replay_cons (ls : Lines) (e : Event) (es : List Event) :
    ls.replay (e :: es) = (ls.apply e).replay es := rfl

@[simp] theorem Lines.apply_w (ls : Lines) (l : Line) (v : Level) : ls.apply (.w l v) = ls.setLevel l v := rfl

@[simp] theorem Lines.apply_wait (ls : Lines) (n : Nat) : ls.apply (.wait n) = ls := rfl

theorem Lines.replay_append (ls : Lines) (as bs : List Event) :
    ls.replay (as ++ bs) = (ls.replay as).replay bs := by
  simp [Lines.replay, List.foldl_append]

@[simp] theorem Lines.latch_setLevel_same (ls : Lines) (l : Line) (v : Level) :
    (ls.setLevel l v).latch l = .level v := by cases l <;> rfl

/-- A write to one line changes no other line (R34). -/
theorem Lines.latch_setLevel_other (ls : Lines) {l k : Line} (v : Level) (h : k ≠ l) :
    (ls.setLevel l v).latch k = ls.latch k := by
  cases l <;> cases k <;> first | rfl | exact absurd rfl h

@[simp] theorem Lines.pin_setLevel (ls : Lines) (l k : Line) (v : Level) :
    (ls.setLevel l v).pin k = ls.pin k := by cases l <;> cases k <;> rfl

@[simp] theorem Lines.rest_rest (ls : Lines) (c d : Level) : (ls.rest c).rest d = ls.rest d := rfl

theorem Lines.replay_xfer (ls : Lines) (b : Byte) :
    ls.replay (xferEvents b) = { ls with clock := .level false, data := .level (b.getLsbD 0) } := by
  simp [xferEvents, bitEvents, Lines.apply, Lines.setLevel]

theorem Lines.replay_frame (ls : Lines) (b : Byte) :
    ls.replay (frameEvents b) = ls.rest (b.getLsbD 0) := by
  simp only [frameEvents, Lines.replay_append, Lines.replay_xfer]
  rfl

theorem Lines.replay_wait (ls : Lines) (n : Nat) : ls.replay [.wait n] = ls := rfl

theorem Lines.replay_acq (ls : Lines) (p : Params) : ls.replay (acqEvents p) = Lines.acquired p := rfl

theorem Lines.replay_nib (ls : Lines) (x : Byte) :
    ls.replay (nibEvents x) = ls.rest (x.getLsbD 0) := by
  rw [nibEvents, Lines.replay_append, Lines.replay_frame, Lines.replay_frame, Lines.rest_rest]

/-- Bit 0 of an admitted nibble value is 0 (R59). -/
theorem nibAdmitted_bit0 {x : Byte} (h : nibAdmitted x = true) : x.getLsbD 0 = false := by
  have hx : x &&& 0x0D#8 = 0#8 := by simpa [nibAdmitted] using h
  have : (x &&& 0x0D#8).getLsbD 0 = false := by rw [hx]; rfl
  simpa using this

theorem modeAdmitted_iff (m : Byte) : modeAdmitted m = true ↔ m = 0#8 ∨ m = 2#8 := by
  simp [modeAdmitted]

/-- Both nibble values of an admitted BYTE are admitted (R55, R59). -/
theorem hiNibble_admitted {m : Byte} (v : Byte) (h : modeAdmitted m = true) : nibAdmitted (hiNibble m v) = true := by
  rcases (modeAdmitted_iff m).1 h with rfl | rfl <;> revert v <;> decide

theorem loNibble_admitted {m : Byte} (v : Byte) (h : modeAdmitted m = true) : nibAdmitted (loNibble m v) = true := by
  rcases (modeAdmitted_iff m).1 h with rfl | rfl <;> revert v <;> decide

theorem Lines.replay_byte (ls : Lines) (m v : Byte) (h : modeAdmitted m = true) :
    ls.replay (byteEvents m v) = ls.rest false := by
  have hi := nibAdmitted_bit0 (hiNibble_admitted v h)
  have lo := nibAdmitted_bit0 (loNibble_admitted v h)
  simp only [hiNibble, loNibble] at hi lo
  rw [byteEvents, Lines.replay_append, Lines.replay_append, Lines.replay_nib, Lines.replay_nib, Lines.replay_wait,
    Lines.rest_rest, lo]

theorem Lines.replay_text (cs : List Byte) : ∀ ls : Lines, cs ≠ [] → ls.replay (textEvents cs) = ls.rest false := by
  induction cs with
  | nil => intro _ h; exact absurd rfl h
  | cons c cs ih =>
    intro ls _
    have e : textEvents (c :: cs) = byteEvents 0x02#8 c ++ textEvents cs := rfl
    rw [e, Lines.replay_append, Lines.replay_byte _ _ _ (by decide)]
    cases cs with
    | nil => rfl
    | cons d ds => rw [ih _ (by simp), Lines.rest_rest]

end Sys2Proof.Machine
end

