-- ==== Sys2Proof/Laws/Ops.lean ====
section
/-! SUPPORT. One lemma per shared operation: everything it does, as the events it emits and the registers it writes. -/

namespace Sys2Proof.Machine

/-- One pass of the bit loop (R70). -/
theorem State.xferLoop_succ (k : Nat) (s : State) :
    s.xferLoop (k + 1) = State.xferLoop k { s.after (bitEvents (s.sr.getLsbD k)) with bc := BitVec.ofNat 4 k } := rfl

/-- `XFER` is its function to events (R70), with SR holding the byte and BC at 0. -/
theorem State.xfer_eq (s : State) (b : Byte) : s.xfer b = { s.after (xferEvents b) with sr := b, bc := 0#4 } := by
  simp only [State.xfer, State.xferLoop]
  simp [State.after, xferEvents, bitEvents]

/-- `FRAME` is its function to events (R80), with FB and SR holding the byte. -/
theorem State.frame_eq (s : State) (b : Byte) :
    s.frame b = { s.after (frameEvents b) with fb := b, sr := b, bc := 0#4 } := by
  simp only [State.frame, State.xfer_eq, State.drive, State.emit, State.after]
  simp [frameEvents, Lines.replay_append]

/-- `NIB` is its function to events (R81), with PH left at 1. -/
theorem State.nib_eq (s : State) (x : Byte) :
    s.nib x = { s.after (nibEvents x) with ph := 1#1, fb := x, sr := x, bc := 0#4 } := by
  simp only [State.nib, State.frame_eq, State.after, enableSet, enableClear, enableMask]
  simp [nibEvents, Lines.replay_append]

/-- `wait` adds its event and leaves DLY at 0 (R92). -/
theorem State.wait_eq (s : State) (n : BitVec 13) : s.wait n = { s.after [.wait n.toNat] with dly := 0#13 } := rfl

theorem setWidth_mode {m : Byte} (h : modeAdmitted m = true) : (m.setWidth 2).setWidth 8 = m := by
  rcases (modeAdmitted_iff m).1 h with rfl | rfl <;> rfl

/-- `BYTE` is its function to events (R90), for an admitted mode. -/
theorem State.byte_eq (s : State) (m v : Byte) (h : modeAdmitted m = true) :
    s.byte m v = { s.after (byteEvents m v) with
      md := m.setWidth 2, val := v, ns := 1#1, ph := 1#1, fb := loNibble m v, sr := loNibble m v, bc := 0#4,
      dly := 0#13 } := by
  simp only [State.byte, State.nib_eq, State.wait_eq, State.after, setWidth_mode h, hiNibble, loNibble]
  simp [byteEvents, Lines.replay_append, tSettle]

/-- `ACQ` is its function to events (R100). -/
theorem State.acquire_eq (s : State) : s.acquire = s.after (acqEvents s.params) := rfl

/-- `BYTE` touches neither STEP, IDX, SESSION.mode, VERSION, the parameters nor the requests (R90). -/
theorem State.byte_control (s : State) (m v : Byte) : s.SameControl (s.byte m v) := by
  simp only [State.byte, State.nib_eq, State.wait_eq]
  exact ⟨rfl, rfl, rfl, rfl, rfl, rfl⟩

/-- The passes of the loop over the bytes `cs`: each is sent and IDX advanced (R17). -/
def State.sendAll (s : State) (m : Byte) : List Byte → State
  | [] => s
  | c :: cs => State.sendAll ((s.byte m c).setIdx ((s.byte m c).idx + 1#5)) m cs

@[simp] theorem State.sendAll_nil (s : State) (m : Byte) : s.sendAll m [] = s := rfl

theorem State.sendAll_cons (s : State) (m c : Byte) (cs : List Byte) :
    s.sendAll m (c :: cs) = ((s.byte m c).setIdx ((s.byte m c).idx + 1#5)).sendAll m cs := rfl

/-- The loop's passes emit the events of each byte, in order. -/
theorem State.sendAll_events (m : Byte) (hm : modeAdmitted m = true) (cs : List Byte) : ∀ s : State,
    (s.sendAll m cs).lines = s.lines.replay (cs.flatMap (byteEvents m)) ∧
    (s.sendAll m cs).trace = s.trace ++ cs.flatMap (byteEvents m) := by
  induction cs with
  | nil => intro s; simp
  | cons c cs ih =>
    intro s
    obtain ⟨h1, h2⟩ := ih ((s.byte m c).setIdx ((s.byte m c).idx + 1#5))
    have hl : (s.byte m c).lines = s.lines.replay (byteEvents m c) := by rw [State.byte_eq s m c hm]; rfl
    have ht : (s.byte m c).trace = s.trace ++ byteEvents m c := by
      rw [State.byte_eq s m c hm, ← State.trace_after]; rfl
    rw [State.sendAll_cons, h1, h2, List.flatMap_cons, Lines.replay_append, ← List.append_assoc, ← ht, ← hl]
    simp only [State.setIdx_lines, State.setIdx_trace, and_self]

/-- The loop's passes advance IDX by the number of bytes and keep the rest of the control state. -/
theorem State.sendAll_control (m : Byte) (cs : List Byte) : ∀ s : State,
    (s.sendAll m cs).idx = s.idx + BitVec.ofNat 5 cs.length ∧
    (s.sendAll m cs).stepReg = s.stepReg ∧ (s.sendAll m cs).sessionMode = s.sessionMode ∧
    (s.sendAll m cs).version = s.version ∧ (s.sendAll m cs).params = s.params ∧
    (s.sendAll m cs).requests = s.requests := by
  induction cs with
  | nil => intro s; simp
  | cons c cs ih =>
    intro s
    obtain ⟨b1, b2, b3, b4, b5, b6⟩ := s.byte_control m c
    have h := ih ((s.byte m c).setIdx ((s.byte m c).idx + 1#5))
    simp only [State.setIdx_idx, State.setIdx_stepReg, State.setIdx_sessionMode, State.setIdx_version,
      State.setIdx_params, State.setIdx_requests, b1, b3, b4, b5, b6] at h
    rw [State.sendAll_cons]
    refine ⟨?_, h.2⟩
    rw [h.1, b2, List.length_cons, BitVec.add_assoc]
    congr 1
    rw [Nat.add_comm cs.length 1, BitVec.ofNat_add]

/-- The loop sends every byte it can fetch below the bound and, where it looks for one, not a terminator (R44, R115,
R117, R119); what it does after them is what it does from there. -/
theorem sendRun_sends (sp : Space) (m : Byte) (bound : Nat) (hb : bound ≤ 20)
    (stop : Bool) (cs : List Byte) : ∀ (fuel : Nat) (s : State), s.idx.toNat + cs.length ≤ bound →
    (∀ i (h : i < cs.length), s.memRead sp (s.idx.toNat + i) = some cs[i]) →
    (stop = true → ∀ i (h : i < cs.length), cs[i] ≠ 0x00#8) →
    sendRun sp m bound stop (fuel + cs.length) s = sendRun sp m bound stop fuel (s.sendAll m cs) := by
  induction cs with
  | nil => intros; rfl
  | cons c cs ih =>
    intro fuel s hlen hread hstop
    have hlen' : s.idx.toNat + cs.length + 1 ≤ bound := by simpa [Nat.add_assoc] using hlen
    have hc : s.memRead sp s.idx.toNat = some c := hread 0 (Nat.succ_pos _)
    have hz : (stop && c == 0x00#8) = false := by
      cases stop with
      | false => rfl
      | true =>
        have h0 : c ≠ 0x00#8 := hstop rfl 0 (Nat.succ_pos _)
        simpa using h0
    have hidx : ((s.byte m c).idx + 1#5).toNat = s.idx.toNat + 1 := by
      rw [(s.byte_control m c).2.1, BitVec.toNat_add]
      exact Nat.mod_eq_of_lt (by simp; omega)
    have hlt : s.idx.toNat < bound := by omega
    rw [List.length_cons, ← Nat.add_assoc, sendRun, if_pos hlt, hc]
    simp only [hz, Bool.false_eq_true, if_false]
    rw [State.sendAll_cons]
    have hmem : ∀ i, ((s.byte m c).setIdx ((s.byte m c).idx + 1#5)).memRead sp i = s.memRead sp i := by
      intro i
      cases sp <;> simp only [State.memRead, State.setIdx_version, (s.byte_control m c).2.2.2.1]
    apply ih
    · simp only [State.setIdx_idx, hidx]; omega
    · intro i hi
      rw [hmem, State.setIdx_idx, hidx]
      have h1 : s.memRead sp (s.idx.toNat + (i + 1)) = some cs[i] := hread (i + 1) (Nat.succ_lt_succ hi)
      rwa [Nat.add_assoc, Nat.add_comm 1 i]
    · intro h i hi
      exact hstop h (i + 1) (Nat.succ_lt_succ hi)

/-- At the bound the loop ends, whatever fuel is left. -/
theorem sendRun_at_bound (sp : Space) (m : Byte) (bound : Nat) (stop : Bool) (fuel : Nat) (s : State)
    (h : bound ≤ s.idx.toNat) : sendRun sp m bound stop fuel s = .next s := by
  cases fuel with
  | zero => rfl
  | succ n => rw [sendRun, if_neg (by omega)]

/-- At a terminator the loop ends and sends nothing more (R119). -/
theorem sendRun_at_terminator (sp : Space) (m : Byte) (bound fuel : Nat) (s : State)
    (h : s.memRead sp s.idx.toNat = some 0x00#8) : sendRun sp m bound true fuel s = .next s := by
  cases fuel with
  | zero => rfl
  | succ n =>
    rw [sendRun, h]
    simp

/-- At an index that cannot be read the loop is refused (U9). -/
theorem sendRun_at_unreadable (sp : Space) (m : Byte) (bound : Nat) (stop : Bool) (fuel : Nat) (s : State)
    (hlt : s.idx.toNat < bound) (h : s.memRead sp s.idx.toNat = none) :
    sendRun sp m bound stop (fuel + 1) s = .refused (.storeUnreadable sp s.idx.toNat) := by
  rw [sendRun, if_pos hlt, h]

end Sys2Proof.Machine
end

