-- ==== Sys2Proof/Laws/Exec.lean ====
section
/-! SUPPORT. What any instruction can do, said once: it emits events that fit the parameters, the lines follow them, and
the control state stays legal. Every invariant is drawn from `exec_moves` and `exec_stepReg`. -/

namespace Sys2Proof.Machine

/-- An acquisition event names the physical line and pull mode that the parameters give (R100). -/
def Event.Fits (p : Params) : Event → Prop
  | .acqOut .strobe pin v => pin = p.pinStrobe ∧ v = p.initStrobe
  | .acqOut .clock pin v => pin = p.pinClock ∧ v = p.initClock
  | .acqOut .data pin v => pin = p.pinData ∧ v = p.initData
  | .acqIn pin pull => pin = p.pinUnused ∧ pull = p.pullUnused
  | .w _ _ => True
  | .wait _ => True

/-- `t` comes from `s` by events that fit the parameters; registers no operation writes are the same, and those it
writes stay legal. STEP is not spoken of. -/
structure Moves (s t : State) : Prop where
  events : ∃ es : List Event, (∀ e ∈ es, e.Fits s.params) ∧ t.lines = s.lines.replay es ∧ t.trace = s.trace ++ es
  sessionMode : t.sessionMode = s.sessionMode
  version : t.version = s.version
  params : t.params = s.params
  requests : t.requests = s.requests
  idx : s.idx.toNat ≤ 20 → t.idx.toNat ≤ 20
  md : (s.md = 0#2 ∨ s.md = 2#2) → (t.md = 0#2 ∨ t.md = 2#2)
  bc : s.bc = 0#4 → t.bc = 0#4
  dly : s.dly = 0#13 → t.dly = 0#13

theorem Moves.refl (s : State) : Moves s s where
  events := ⟨[], by simp⟩
  sessionMode := rfl
  version := rfl
  params := rfl
  requests := rfl
  idx := id
  md := id
  bc := id
  dly := id

theorem Moves.trans {s t u : State} (h : Moves s t) (k : Moves t u) : Moves s u where
  events := by
    obtain ⟨as, ha, la, ta⟩ := h.events
    obtain ⟨bs, hb, lb, tb⟩ := k.events
    refine ⟨as ++ bs, ?_, ?_, ?_⟩
    · intro e he
      rcases List.mem_append.1 he with he | he
      · exact ha e he
      · rw [h.params] at hb; exact hb e he
    · rw [lb, la, Lines.replay_append]
    · rw [tb, ta, List.append_assoc]
  sessionMode := k.sessionMode.trans h.sessionMode
  version := k.version.trans h.version
  params := k.params.trans h.params
  requests := k.requests.trans h.requests
  idx := k.idx ∘ h.idx
  md := k.md ∘ h.md
  bc := k.bc ∘ h.bc
  dly := k.dly ∘ h.dly

/-- Fitting events, with the working registers set to anything legal, are a move. -/
theorem Moves.of_after {s t : State} {es : List Event} {sr fb val : Byte} {bc : BitVec 4} {ph ns : BitVec 1}
    {md : BitVec 2} {dly : BitVec 13} (hes : ∀ e ∈ es, e.Fits s.params)
    (h : t = { s.after es with
      sr := sr, bc := bc, fb := fb, ph := ph, val := val, md := md, ns := ns, dly := dly })
    (hm : (s.md = 0#2 ∨ s.md = 2#2) → (md = 0#2 ∨ md = 2#2)) (hb : s.bc = 0#4 → bc = 0#4)
    (hd : s.dly = 0#13 → dly = 0#13) : Moves s t := by
  subst h
  exact ⟨⟨es, hes, by simp, by simp [State.trace]⟩, by simp, by simp, by simp, by simp, by simp, hm, hb, hd⟩

theorem xferEvents_fit (p : Params) (b : Byte) : ∀ e ∈ xferEvents b, e.Fits p := by
  simp [xferEvents, bitEvents, Event.Fits]

theorem frameEvents_fit (p : Params) (b : Byte) : ∀ e ∈ frameEvents b, e.Fits p := by
  intro e he
  simp only [frameEvents, List.mem_append, List.mem_cons, List.not_mem_nil, or_false] at he
  rcases he with ((rfl | rfl) | he) | rfl
  · trivial
  · trivial
  · exact xferEvents_fit p b e he
  · trivial

theorem nibEvents_fit (p : Params) (x : Byte) : ∀ e ∈ nibEvents x, e.Fits p := by
  intro e he
  rcases List.mem_append.1 he with he | he <;> exact frameEvents_fit p _ e he

theorem byteEvents_fit (p : Params) (m v : Byte) : ∀ e ∈ byteEvents m v, e.Fits p := by
  intro e he
  simp only [byteEvents, List.mem_append, List.mem_singleton] at he
  rcases he with (he | he) | rfl
  · exact nibEvents_fit p _ e he
  · exact nibEvents_fit p _ e he
  · trivial

theorem acqEvents_fit (p : Params) : ∀ e ∈ acqEvents p, e.Fits p := by
  simp [acqEvents, Event.Fits]

theorem moves_xfer (s : State) (b : Byte) : Moves s (s.xfer b) :=
  .of_after (es := xferEvents b) (sr := b) (bc := 0#4) (fb := s.fb) (ph := s.ph) (val := s.val) (md := s.md) (ns := s.ns)
    (dly := s.dly) (xferEvents_fit _ b) (by rw [State.xfer_eq]; simp only [State.after]) id (fun _ => rfl) id

theorem moves_frame (s : State) (b : Byte) : Moves s (s.frame b) :=
  .of_after (frameEvents_fit _ b) (s.frame_eq b) id (fun _ => rfl) id

theorem moves_nib (s : State) (x : Byte) : Moves s (s.nib x) :=
  .of_after (nibEvents_fit _ x) (s.nib_eq x) id (fun _ => rfl) id

theorem moves_wait (s : State) (n : BitVec 13) : Moves s (s.wait n) :=
  .of_after (by simp [Event.Fits]) (s.wait_eq n) id id (fun _ => rfl)

theorem moves_byte (s : State) (m v : Byte) (h : modeAdmitted m = true) : Moves s (s.byte m v) := by
  refine .of_after (byteEvents_fit _ m v) (s.byte_eq m v h) (fun _ => ?_) (fun _ => rfl) (fun _ => rfl)
  rcases (modeAdmitted_iff m).1 h with rfl | rfl
  · exact .inl rfl
  · exact .inr rfl

theorem moves_acquire (s : State) : Moves s s.acquire :=
  .of_after (acqEvents_fit _) s.acquire_eq id id id

theorem moves_setStep (s : State) (n : BitVec 4) : Moves s (s.setStep n) where
  events := ⟨[], by simp⟩
  sessionMode := rfl
  version := rfl
  params := rfl
  requests := rfl
  idx := id
  md := id
  bc := id
  dly := id

theorem moves_setIdx (s : State) (n : BitVec 5) (h : s.idx.toNat ≤ 20 → n.toNat ≤ 20) : Moves s (s.setIdx n) where
  events := ⟨[], by simp⟩
  sessionMode := rfl
  version := rfl
  params := rfl
  requests := rfl
  idx := h
  md := id
  bc := id
  dly := id

theorem State.xfer_stepReg (s : State) (b : Byte) : (s.xfer b).stepReg = s.stepReg := by simp [State.xfer_eq]

theorem State.frame_stepReg (s : State) (b : Byte) : (s.frame b).stepReg = s.stepReg := by simp [State.frame_eq]

theorem State.nib_stepReg (s : State) (x : Byte) : (s.nib x).stepReg = s.stepReg := by simp [State.nib_eq]

theorem State.byte_stepReg (s : State) (m v : Byte) : (s.byte m v).stepReg = s.stepReg := (s.byte_control m v).1

theorem State.acquire_stepReg (s : State) : s.acquire.stepReg = s.stepReg := rfl

/-- `andThen` answers a next state only through one of its first part. -/
theorem andThen_next {o : Result} {f : State → Result} {t : State} (h : andThen o f = .next t) :
    ∃ u, o = .next u ∧ f u = .next t := by
  cases o with
  | next u => exact ⟨u, rfl, h⟩
  | fault r => cases r
  | refused r => simp [andThen] at h

/-- The text loop only moves, and keeps STEP. -/
theorem moves_sendRun (sp : Space) (m : Byte) (hm : modeAdmitted m = true) (bound : Nat) (hb : bound ≤ 20) (stop : Bool)
    (fuel : Nat) : ∀ s t : State, sendRun sp m bound stop fuel s = .next t → Moves s t ∧ t.stepReg = s.stepReg := by
  induction fuel with
  | zero =>
    intro s t h
    have : s = t := by simpa [sendRun] using h
    subst this
    exact ⟨.refl s, rfl⟩
  | succ n ih =>
    intro s t h
    rw [sendRun] at h
    split at h
    · next hlt =>
      split at h
      · simp at h
      · next c _ =>
        split at h
        · have : s = t := by simpa using h
          subst this
          exact ⟨.refl s, rfl⟩
        · obtain ⟨k, e⟩ := ih _ _ h
          have hi : (s.byte m c).idx = s.idx := (s.byte_control m c).2.1
          have hidx : ((s.byte m c).idx + 1#5).toNat ≤ 20 := by
            rw [hi, BitVec.toNat_add]
            have : (s.idx.toNat + (1#5).toNat) % 2 ^ 5 = s.idx.toNat + 1 := Nat.mod_eq_of_lt (by simp; omega)
            omega
          exact ⟨((moves_byte s m c hm).trans (moves_setIdx _ _ fun _ => hidx)).trans k,
            by rw [e, State.setIdx_stepReg, State.byte_stepReg]⟩
    · have : s = t := by simpa using h
      subst this
      exact ⟨.refl s, rfl⟩

theorem moves_execS7 {s t : State} (h : execS7 s = .next t) : Moves s t ∧ t.stepReg = s.stepReg := by
  obtain ⟨u, hu, ht⟩ := andThen_next h
  obtain ⟨k, e⟩ := moves_sendRun .cfg modeCmd rfl _ (by decide) false _ _ _ hu
  have : u.wait tClear = t := by simpa using ht
  subst this
  exact ⟨((moves_setIdx s 0#5 fun _ => by decide).trans k).trans (moves_wait u _), by rw [State.wait_stepReg, e, State.setIdx_stepReg]⟩

theorem moves_execS9 {s t : State} (h : execS9 s = .next t) : Moves s t ∧ t.stepReg = s.stepReg := by
  obtain ⟨k, e⟩ := moves_sendRun .banner modeChr rfl _ (by decide) false _ _ _ h
  exact ⟨(moves_setIdx s 0#5 fun _ => by decide).trans k, e⟩

theorem moves_execS11 {s t : State} (h : execS11 s = .next t) : Moves s t ∧ t.stepReg = s.stepReg := by
  obtain ⟨k, e⟩ := moves_sendRun .version modeChr rfl _ (by decide) true _ _ _ h
  exact ⟨(moves_setIdx s 0#5 fun _ => by decide).trans k, e⟩

/-- The action of a sequencer step moves and keeps STEP. -/
theorem moves_execSteps {s t : State} :
    (execS1 s = .next t → Moves s t ∧ t.stepReg = s.stepReg) ∧
    (execS2 s = .next t → Moves s t ∧ t.stepReg = s.stepReg) ∧
    (execS3 s = .next t → Moves s t ∧ t.stepReg = s.stepReg) ∧
    (execS4 s = .next t → Moves s t ∧ t.stepReg = s.stepReg) ∧
    (execS5 s = .next t → Moves s t ∧ t.stepReg = s.stepReg) ∧
    (execS6 s = .next t → Moves s t ∧ t.stepReg = s.stepReg) ∧
    (execS8 s = .next t → Moves s t ∧ t.stepReg = s.stepReg) ∧
    (execS10 s = .next t → Moves s t ∧ t.stepReg = s.stepReg) := by
  refine ⟨?_, ?_, ?_, ?_, ?_, ?_, ?_, ?_⟩ <;> intro h <;> injection h with h <;> subst h
  · exact ⟨moves_acquire s, rfl⟩
  · exact ⟨moves_frame s _, s.frame_stepReg _⟩
  · exact ⟨(moves_nib s _).trans (moves_wait _ _), by rw [State.wait_stepReg, State.nib_stepReg]⟩
  · exact ⟨(moves_nib s _).trans (moves_wait _ _), by rw [State.wait_stepReg, State.nib_stepReg]⟩
  · exact ⟨moves_nib s _, s.nib_stepReg _⟩
  · exact ⟨moves_nib s _, s.nib_stepReg _⟩
  · exact ⟨moves_byte s _ _ rfl, s.byte_stepReg _ _⟩
  · exact ⟨moves_byte s _ _ rfl, s.byte_stepReg _ _⟩

theorem moves_execBoot {s t : State} (h : execBoot s = .next t) : Moves s t ∧ t.stepReg = 0#4 := by
  unfold execBoot at h
  split at h
  · simp at h
  · obtain ⟨a1, h1, h⟩ := andThen_next h
    obtain ⟨a2, h2, h⟩ := andThen_next h
    obtain ⟨a3, h3, h⟩ := andThen_next h
    obtain ⟨a4, h4, h⟩ := andThen_next h
    obtain ⟨a5, h5, h⟩ := andThen_next h
    obtain ⟨a6, h6, h⟩ := andThen_next h
    obtain ⟨a7, h7, h⟩ := andThen_next h
    obtain ⟨a8, h8, h⟩ := andThen_next h
    obtain ⟨a9, h9, h⟩ := andThen_next h
    obtain ⟨a10, h10, h⟩ := andThen_next h
    obtain ⟨a11, h11, h⟩ := andThen_next h
    injection h with h
    subst h
    have m1 := (moves_setStep s 1#4).trans (moves_execSteps.1 h1).1
    have m2 := (moves_setStep a1 2#4).trans (moves_execSteps.2.1 h2).1
    have m3 := (moves_setStep a2 3#4).trans (moves_execSteps.2.2.1 h3).1
    have m4 := (moves_setStep a3 4#4).trans (moves_execSteps.2.2.2.1 h4).1
    have m5 := (moves_setStep a4 5#4).trans (moves_execSteps.2.2.2.2.1 h5).1
    have m6 := (moves_setStep a5 6#4).trans (moves_execSteps.2.2.2.2.2.1 h6).1
    have m7 := (moves_setStep a6 7#4).trans (moves_execS7 h7).1
    have m8 := (moves_setStep a7 8#4).trans (moves_execSteps.2.2.2.2.2.2.1 h8).1
    have m9 := (moves_setStep a8 9#4).trans (moves_execS9 h9).1
    have m10 := (moves_setStep a9 10#4).trans (moves_execSteps.2.2.2.2.2.2.2 h10).1
    have m11 := (moves_setStep a10 11#4).trans (moves_execS11 h11).1
    exact ⟨((((((((((m1.trans m2).trans m3).trans m4).trans m5).trans m6).trans m7).trans m8).trans m9).trans m10).trans
      m11).trans (moves_setStep a11 0#4), rfl⟩

/-- Whatever an instruction does when it answers a next state. -/
theorem exec_moves (i : Instr) {s t : State} (h : exec i s = .next t) : Moves s t := by
  cases i with
  | frmCmdE1 p => injection h with h; subst h; exact moves_frame s _
  | frmCmdE0 p => injection h with h; subst h; exact moves_frame s _
  | frmChrE1 p => injection h with h; subst h; exact moves_frame s _
  | frmChrE0 p => injection h with h; subst h; exact moves_frame s _
  | xfer b => injection h with h; subst h; exact moves_xfer s b
  | frame b => injection h with h; subst h; exact moves_frame s b
  | nib x =>
    simp only [exec, execNib] at h
    split at h
    · injection h with h; subst h; exact moves_nib s x
    · simp at h
  | byte m v =>
    simp only [exec, execByte] at h
    split at h
    · next hm => injection h with h; subst h; exact moves_byte s m v hm
    · simp at h
  | delay n => injection h with h; subst h; exact moves_wait s n
  | acq => injection h with h; subst h; exact moves_acquire s
  | boot => exact (moves_execBoot h).1
  | s1 => exact (moves_execSteps.1 h).1
  | s2 => exact (moves_execSteps.2.1 h).1
  | s3 => exact (moves_execSteps.2.2.1 h).1
  | s4 => exact (moves_execSteps.2.2.2.1 h).1
  | s5 => exact (moves_execSteps.2.2.2.2.1 h).1
  | s6 => exact (moves_execSteps.2.2.2.2.2.1 h).1
  | s7 => exact (moves_execS7 h).1
  | s8 => exact (moves_execSteps.2.2.2.2.2.2.1 h).1
  | s9 => exact (moves_execS9 h).1
  | s10 => exact (moves_execSteps.2.2.2.2.2.2.2 h).1
  | s11 => exact (moves_execS11 h).1

/-- STEP after an instruction: 0 after BOOT, unchanged after any other (R16, R101). -/
theorem exec_stepReg (i : Instr) {s t : State} (h : exec i s = .next t) :
    t.stepReg = if i = .boot then 0#4 else s.stepReg := by
  cases i with
  | frmCmdE1 p => injection h with h; subst h; exact s.frame_stepReg _
  | frmCmdE0 p => injection h with h; subst h; exact s.frame_stepReg _
  | frmChrE1 p => injection h with h; subst h; exact s.frame_stepReg _
  | frmChrE0 p => injection h with h; subst h; exact s.frame_stepReg _
  | xfer b => injection h with h; subst h; exact s.xfer_stepReg b
  | frame b => injection h with h; subst h; exact s.frame_stepReg b
  | nib x =>
    simp only [exec, execNib] at h
    split at h
    · injection h with h; subst h; exact s.nib_stepReg x
    · simp at h
  | byte m v =>
    simp only [exec, execByte] at h
    split at h
    · injection h with h; subst h; exact s.byte_stepReg m v
    · simp at h
  | delay n => injection h with h; subst h; rfl
  | acq => injection h with h; subst h; rfl
  | boot => exact (moves_execBoot h).2
  | s1 => exact (moves_execSteps.1 h).2
  | s2 => exact (moves_execSteps.2.1 h).2
  | s3 => exact (moves_execSteps.2.2.1 h).2
  | s4 => exact (moves_execSteps.2.2.2.1 h).2
  | s5 => exact (moves_execSteps.2.2.2.2.1 h).2
  | s6 => exact (moves_execSteps.2.2.2.2.2.1 h).2
  | s7 => exact (moves_execS7 h).2
  | s8 => exact (moves_execSteps.2.2.2.2.2.2.1 h).2
  | s9 => exact (moves_execS9 h).2
  | s10 => exact (moves_execSteps.2.2.2.2.2.2.2 h).2
  | s11 => exact (moves_execS11 h).2

end Sys2Proof.Machine
end

