-- ==== Sys2Proof/Laws/Observer.lean ====
section
/-! SUPPORT. What the observer's functions do with a trace taken in parts (R130, R133), and that acquisitions are the
only events whose edges are left open. -/

namespace Sys2Proof.Machine

@[simp] theorem Receiver.run_nil (r : Receiver) : r.run [] = r := rfl
@[simp] theorem Receiver.run_cons (r : Receiver) (e : Event) (es : List Event) :
    r.run (e :: es) = (r.feed e).run es := rfl

theorem Receiver.run_append (r : Receiver) (es fs : List Event) : r.run (es ++ fs) = (r.run es).run fs := by
  simp [Receiver.run]

/-- The frames of a trace in two parts are those of the parts, the second seen by the receiver the first leaves. -/
theorem frames_append (r : Receiver) (es fs : List Event) :
    frames r (es ++ fs) = frames r es ++ frames (r.run es) fs := by
  induction es generalizing r with
  | nil => rfl
  | cons e es ih => cases e <;> simp only [List.cons_append, frames, ih, Receiver.run_cons] <;> split <;> rfl

/-- The waveform of a trace in two parts. -/
theorem waveform_append (acq : List AcqEdge) (ls : Lines) (es fs : List Event) :
    waveform acq ls (es ++ fs) =
      waveform acq ls es ++ waveform (es.foldl acqRest acq) (ls.replay es) fs := by
  induction es generalizing acq ls with
  | nil => rfl
  | cons e es ih => simp only [List.cons_append, waveform, ih, List.append_assoc, List.foldl_cons, Lines.replay]

/-- Where nothing is acquired it does not matter how acquisitions are seen. -/
theorem waveform_no_acq (acq acq' : List AcqEdge) (ls : Lines) (es : List Event)
    (h : ∀ e ∈ es, e.isAcquisition = false) : waveform acq ls es = waveform acq' ls es := by
  induction es generalizing ls with
  | nil => rfl
  | cons e es ih =>
    have he := h e (by simp)
    have hr := ih (ls.apply e) fun d hd => h d (by simp [hd])
    cases e <;> simp_all [waveform, waveOf, edgeOf, acqRest, Event.isAcquisition]

/-- A write changes the level it sees only as R130 says: the transition it makes ends at the level written. -/
theorem writeEdge_eq_some {before : Latch} {u v : Level} :
    writeEdge before v = some u ↔ u = v ∧ before = .level (!v) := by
  cases before with
  | unacquired => simp [writeEdge]
  | level x => cases x <;> cases v <;> cases u <;> simp [writeEdge]

end Sys2Proof.Machine
end

