-- ==== Sys2Proof/Laws/PerInstr.lean ====
section
/-! SUPPORT. Statements made per instruction. Family EncodedShape: the code of every instruction has the shape its row
of the opcode table has (R51, R56, R57). -/

namespace Sys2Proof.Laws

/-- How many operand bytes a request takes: BYTE's 16 bits and DELAY's 13 are two bytes, every other row one (R56). -/
def EncodedShape.width : Port → Nat
  | .byteFramer | .delayUnit => 2
  | .transmitter | .framer | .nibbleSend | .pinBinding | .bootSequencer | .frameOfClass => 1

/-- A request has as many operand bytes as it takes; a step number is one of 1 to 11. -/
def EncodedShape.Statement (i : Instr) : Prop :=
  match encode i with
  | .request r => r.bytes.length = EncodedShape.width r.port
  | .step n => 1 ≤ n.toNat ∧ n.toNat ≤ 11

theorem EncodedShape.frmCmdE1 (p : Nibble) : EncodedShape.Statement (.frmCmdE1 p) := rfl
theorem EncodedShape.frmCmdE0 (p : Nibble) : EncodedShape.Statement (.frmCmdE0 p) := rfl
theorem EncodedShape.frmChrE1 (p : Nibble) : EncodedShape.Statement (.frmChrE1 p) := rfl
theorem EncodedShape.frmChrE0 (p : Nibble) : EncodedShape.Statement (.frmChrE0 p) := rfl
theorem EncodedShape.xfer (b : Byte) : EncodedShape.Statement (.xfer b) := rfl
theorem EncodedShape.frame (b : Byte) : EncodedShape.Statement (.frame b) := rfl
theorem EncodedShape.nib (x : Byte) : EncodedShape.Statement (.nib x) := rfl
theorem EncodedShape.byte (m v : Byte) : EncodedShape.Statement (.byte m v) := rfl
theorem EncodedShape.delay (n : BitVec 13) : EncodedShape.Statement (.delay n) := rfl
theorem EncodedShape.acq : EncodedShape.Statement .acq := rfl
theorem EncodedShape.boot : EncodedShape.Statement .boot := rfl
theorem EncodedShape.s1 : EncodedShape.Statement .s1 := by constructor <;> decide
theorem EncodedShape.s2 : EncodedShape.Statement .s2 := by constructor <;> decide
theorem EncodedShape.s3 : EncodedShape.Statement .s3 := by constructor <;> decide
theorem EncodedShape.s4 : EncodedShape.Statement .s4 := by constructor <;> decide
theorem EncodedShape.s5 : EncodedShape.Statement .s5 := by constructor <;> decide
theorem EncodedShape.s6 : EncodedShape.Statement .s6 := by constructor <;> decide
theorem EncodedShape.s7 : EncodedShape.Statement .s7 := by constructor <;> decide
theorem EncodedShape.s8 : EncodedShape.Statement .s8 := by constructor <;> decide
theorem EncodedShape.s9 : EncodedShape.Statement .s9 := by constructor <;> decide
theorem EncodedShape.s10 : EncodedShape.Statement .s10 := by constructor <;> decide
theorem EncodedShape.s11 : EncodedShape.Statement .s11 := by constructor <;> decide

end Sys2Proof.Laws
end

