-- ==== Sys2Proof/Laws/Store.lean ====
section
/-! SUPPORT. The VERSION store: a read after a write, and that every operation keeps the canonical form. -/

namespace Sys2Proof.Machine

theorem cellRead_write_same (m : List Host.Cell) (a : Nat) (b : Byte) : cellRead (cellWrite m a b) a = some b := by
  induction m with
  | nil => simp [cellWrite, cellRead]
  | cons c rest ih =>
    obtain ⟨k, v⟩ := c
    by_cases h1 : a < k
    · simp [cellWrite, cellRead, h1]
    · by_cases h2 : a = k
      · simp [cellWrite, cellRead, h2]
      · have h3 : k ≠ a := fun h => h2 h.symm
        simp [cellWrite, cellRead, h1, h2, h3, ih]

theorem cellRead_write_other (m : List Host.Cell) {a c : Nat} (b : Byte) (h : c ≠ a) :
    cellRead (cellWrite m a b) c = cellRead m c := by
  have h' : a ≠ c := fun e => h e.symm
  induction m with
  | nil => simp [cellWrite, cellRead, h']
  | cons d rest ih =>
    obtain ⟨k, v⟩ := d
    by_cases h1 : a < k
    · simp [cellWrite, cellRead, h1, h']
    · by_cases h2 : a = k
      · subst h2
        simp [cellWrite, cellRead, h']
      · simp only [cellWrite, h1, h2, if_false, cellRead, ih]

theorem keysAbove_write {k a : Nat} {m : List Host.Cell} (b : Byte) (hk : k < a) (h : keysAbove k m = true) :
    keysAbove k (cellWrite m a b) = true := by
  induction m with
  | nil => simp [cellWrite, keysAbove, hk]
  | cons c rest ih =>
    obtain ⟨j, v⟩ := c
    simp only [keysAbove, List.all_cons, Bool.and_eq_true, decide_eq_true_eq] at h ih ⊢
    by_cases h1 : a < j
    · simp [cellWrite, h1, hk, h]
    · by_cases h2 : a = j
      · subst h2
        simp [cellWrite, h]
      · simp [cellWrite, h1, h2, h, ih h.2]

theorem keysAbove_trans {k j : Nat} {m : List Host.Cell} (hkj : k < j) (h : keysAbove j m = true) :
    keysAbove k m = true := by
  simp only [keysAbove, List.all_eq_true, decide_eq_true_eq] at h ⊢
  exact fun c hc => Nat.lt_trans hkj (h c hc)

/-- A write keeps the canonical form. -/
theorem Memory.wf_write {m : List Host.Cell} (a : Nat) (b : Byte) (h : Memory.wf m = true) :
    Memory.wf (cellWrite m a b) = true := by
  induction m with
  | nil => rfl
  | cons c rest ih =>
    obtain ⟨k, v⟩ := c
    simp only [Memory.wf, Bool.and_eq_true] at h
    by_cases h1 : a < k
    · have : keysAbove a ((k, v) :: rest) = true := by
        simp only [keysAbove, List.all_cons, Bool.and_eq_true, decide_eq_true_eq]
        exact ⟨h1, keysAbove_trans h1 h.1⟩
      simp [cellWrite, h1, Memory.wf, h, this]
    · by_cases h2 : a = k
      · subst h2
        simp [cellWrite, Memory.wf, h]
      · have hk : k < a := by omega
        simp [cellWrite, h1, h2, Memory.wf, ih h.2, keysAbove_write b hk h.1]

/-- Populating the store keeps the canonical form. -/
theorem Memory.wf_load (bs : List Byte) : ∀ (m : List Host.Cell) (a : Nat), Memory.wf m = true →
    Memory.wf (cellLoad m a bs) = true := by
  induction bs with
  | nil => intro _ _ h; exact h
  | cons b bs ih => intro m a h; exact ih _ _ (Memory.wf_write a b h)

theorem State.ensureVersion_wf (s : State) (h : Memory.wf s.version = true) :
    Memory.wf s.ensureVersion.version = true := by
  unfold State.ensureVersion
  split
  · exact h
  · exact Memory.wf_write 0 _ h

/-- A populated store reads back the bytes put into it, each at its index. -/
theorem cellRead_load (bs : List Byte) : ∀ (m : List Host.Cell) (a i : Nat),
    cellRead (cellLoad m a bs) (a + i) = if h : i < bs.length then some bs[i] else
      cellRead m (a + i) := by
  induction bs with
  | nil => intro m a i; simp [cellLoad]
  | cons b bs ih =>
    intro m a i
    cases i with
    | zero =>
      have keep : ∀ (cs : List Byte) (m : List Host.Cell) (c : Nat), a < c →
          cellRead (cellLoad m c cs) a = cellRead m a := by
        intro cs
        induction cs with
        | nil => intro _ _ _; rfl
        | cons d ds ihd =>
          intro m c hc
          rw [cellLoad, ihd _ _ (Nat.lt_succ_of_lt hc), cellRead_write_other _ _ (Nat.ne_of_lt hc)]
      rw [Nat.add_zero, cellLoad, keep _ _ _ (Nat.lt_succ_self a), cellRead_write_same]
      simp
    | succ i =>
      have e : a + (i + 1) = (a + 1) + i := by omega
      rw [cellLoad, e, ih]
      by_cases h : i < bs.length
      · simp [h]
      · simp [h]
        exact cellRead_write_other _ _ (by omega)

end Sys2Proof.Machine
end

