-- ==== Sys2Proof/Tests/Slice0.lean ====
section
/-! SUPPORT. The model's own tests, each about one step or one word, the expected values from spec/ (mostly
95_test_vectors.md), and one witness for every statement with hypotheses. -/

namespace Sys2Proof.Tests

open Sys2Proof.Machine

/-! ## Helpers -/

/-- Parameters as in program P1: all initial levels 0. -/
def params0 : Params := ⟨1, 2, 3, 4, false, false, false, 0⟩

/-- The reset state with those parameters. -/
def start : State := { State.reset with params := params0 }

/-- Levels 1, 0, 0, as after step S2 (vectors V7b to V15). -/
def atRest : State := { start with lines := (Lines.acquired params0).rest false }

/-- VERSION = "V1.2" (program P3), with a byte after the terminator. -/
def v12 : List Byte := [0x56#8, 0x31#8, 0x2E#8, 0x32#8, 0x00#8, 0x7F#8]

/-- At rest, VERSION populated with these bytes. -/
def withVersion (bs : List Byte) : State := atRest.loadVersion bs

/-- The answer is a next state with this property. -/
def gives (o : Result) (p : State → Bool) : Bool :=
  match o with
  | .next t => p t
  | .fault _ => false
  | .refused _ => false

/-- The answer is this refusal. -/
def refuses (o : Result) (r : Refusal) : Bool :=
  match o with
  | .refused q => q == r
  | .next _ => false
  | .fault _ => false

/-- The levels of STROBE, CLOCK and DATA. -/
def levels (s : State) : Latch × Latch × Latch := (s.lines.strobe, s.lines.clock, s.lines.data)

/-- A receiver of unknown contents that sees acquisitions as no edges (R133). -/
def someReceiver : Receiver := ⟨.level true, .level false, true, 0xC3#8, 0x99#8, []⟩

/-- The frame list an observer reads of the state's trace. -/
def seen (s : State) : List FrameItem := frames someReceiver s.trace

/-! ## Well-formedness: each check refuses an ill-formed term (R59, vectors V7h and V15) -/

theorem test_wf_nib_bit3 : (Instr.nib 0x38#8).wellFormed = false := by decide
theorem test_wf_nib_bit0 : (Instr.nib 0x31#8).wellFormed = false := by decide
theorem test_wf_nib_bit2 : (Instr.nib 0x34#8).wellFormed = false := by decide
theorem test_wf_nib_ok : (Instr.nib 0xF2#8).wellFormed = true := by decide
theorem test_wf_byte_mode1 : (Instr.byte 1#8 0x5A#8).wellFormed = false := by decide
theorem test_wf_byte_mode8 : (Instr.byte 8#8 0x5A#8).wellFormed = false := by decide
theorem test_wf_byte_ok : (Instr.byte 2#8 0x5A#8).wellFormed = true := by decide

/-! ## Decoding: words written out from the patterns of R51, R56 and R57 -/

theorem test_decode_frmCmdE1 : decode (.request ⟨.frameOfClass, [0b10011000#8]⟩) = .ok (.frmCmdE1 9#4) := by decide
theorem test_decode_frmCmdE0 : decode (.request ⟨.frameOfClass, [0b10010000#8]⟩) = .ok (.frmCmdE0 9#4) := by decide
theorem test_decode_frmChrE1 : decode (.request ⟨.frameOfClass, [0b01011010#8]⟩) = .ok (.frmChrE1 5#4) := by decide
theorem test_decode_frmChrE0 : decode (.request ⟨.frameOfClass, [0b01010010#8]⟩) = .ok (.frmChrE0 5#4) := by decide
theorem test_decode_xfer : decode (.request ⟨.transmitter, [0b10100101#8]⟩) = .ok (.xfer 0xA5#8) := by decide
theorem test_decode_frame : decode (.request ⟨.framer, [0b00111000#8]⟩) = .ok (.frame 0x38#8) := by decide
theorem test_decode_nib : decode (.request ⟨.nibbleSend, [0b01010010#8]⟩) = .ok (.nib 0x52#8) := by decide
theorem test_decode_byte :
    decode (.request ⟨.byteFramer, [0b01011010#8, 0b00000010#8]⟩) = .ok (.byte 2#8 0x5A#8) := by decide
theorem test_decode_delay :
    decode (.request ⟨.delayUnit, [0b10010100#8, 0b00010001#8]⟩) = .ok (.delay 4500#13) := by decide
theorem test_decode_acq : decode (.request ⟨.pinBinding, [0b1#8]⟩) = .ok .acq := by decide
theorem test_decode_boot : decode (.request ⟨.bootSequencer, [0b1#8]⟩) = .ok .boot := by decide
theorem test_decode_s1_s2_s3 :
    decode (.step 0b0001#4) = .ok .s1 ∧ decode (.step 0b0010#4) = .ok .s2 ∧ decode (.step 0b0011#4) = .ok .s3 := by decide
theorem test_decode_s4_s5_s6 :
    decode (.step 0b0100#4) = .ok .s4 ∧ decode (.step 0b0101#4) = .ok .s5 ∧ decode (.step 0b0110#4) = .ok .s6 := by decide
theorem test_decode_s7_s8_s9 :
    decode (.step 0b0111#4) = .ok .s7 ∧ decode (.step 0b1000#4) = .ok .s8 ∧ decode (.step 0b1001#4) = .ok .s9 := by decide
theorem test_decode_s10_s11 : decode (.step 0b1010#4) = .ok .s10 ∧ decode (.step 0b1011#4) = .ok .s11 := by decide
theorem test_decode_wrong_length : decode (.request ⟨.byteFramer, [0#8]⟩) = .reject .operandLength := by decide
theorem test_decode_no_request_bit : decode (.request ⟨.pinBinding, [0#8]⟩) = .reject .notTheRequestBit := by decide
theorem test_decode_idle : decode (.step 0#4) = .reject .stepIdle := by decide
theorem test_tableWord_s7 : decodeTableWord 8 7 = some .s7 := by decide
theorem test_tableWord_byte : decodeTableWord 16 0x025A = some (.byte 2#8 0x5A#8) := by decide
theorem test_tableWord_delay : decodeTableWord 16 4500 = some (.delay 4500#13) := by decide
theorem test_tableWord_nib : decodeTableWord 8 0x52 = some (.nib 0x52#8) := by decide

/-! ## One step of each instruction -/

/-- V1: the 24 events of XFER 0xA5. -/
theorem test_xfer_A5_events : gives (exec (.xfer 0xA5#8) atRest) (fun t => t.trace ==
    [.w .data true, .w .clock true, .w .clock false, .w .data false, .w .clock true, .w .clock false,
     .w .data true, .w .clock true, .w .clock false, .w .data false, .w .clock true, .w .clock false,
     .w .data false, .w .clock true, .w .clock false, .w .data true, .w .clock true, .w .clock false,
     .w .data false, .w .clock true, .w .clock false, .w .data true, .w .clock true, .w .clock false]) = true := by decide

/-- V4 and R70: STROBE unchanged, CLOCK 0, DATA bit 0, SR the byte, BC 0. -/
theorem test_xfer_01_end : gives (exec (.xfer 0x01#8) atRest) (fun t =>
    levels t == (.level true, .level false, .level true) && t.sr == 1#8 && t.bc == 0#4) = true := by decide

/-- V6: FRAME 0x38 from unacquired lines is read as the frame 38 and ends at 1, 0, 0. -/
theorem test_frame_38 : gives (exec (.frame 0x38#8) start) (fun t =>
    seen t == [.frame 0x38#8] && t.trace.length == 27 && levels t == (.level true, .level false, .level false)) = true := by
  decide

/-- V7a: FRAME 0xFF ends with DATA 1. -/
theorem test_frame_FF : gives (exec (.frame 0xFF#8) start) (fun t =>
    seen t == [.frame 0xFF#8] && levels t == (.level true, .level false, .level true)) = true := by decide

theorem test_frmCmdE1 : gives (exec (.frmCmdE1 3#4) atRest) (fun t => seen t == [.frame 0x38#8]) = true := by decide
theorem test_frmCmdE0 : gives (exec (.frmCmdE0 3#4) atRest) (fun t => seen t == [.frame 0x30#8]) = true := by decide
theorem test_frmChrE1 : gives (exec (.frmChrE1 5#4) atRest) (fun t => seen t == [.frame 0x5A#8]) = true := by decide
theorem test_frmChrE0 : gives (exec (.frmChrE0 5#4) atRest) (fun t => seen t == [.frame 0x52#8]) = true := by decide

/-- V7d. -/
theorem test_nib_52 : gives (exec (.nib 0x52#8) atRest) (fun t =>
    seen t == [.frame 0x5A#8, .frame 0x52#8] && nibbles (seen t) == [.nibble 5#4 true]) = true := by decide

/-- V7h. -/
theorem test_nib_38_refused : refuses (exec (.nib 0x38#8) atRest) (.nibNotAdmitted 0x38#8) = true := by decide

/-- V14: the high nibble goes first. -/
theorem test_byte_2_A5 : gives (exec (.byte 2#8 0xA5#8) atRest) (fun t =>
    seen t == [.frame 0xAA#8, .frame 0xA2#8, .frame 0x5A#8, .frame 0x52#8, .wait 37]) = true := by decide

/-- V15. -/
theorem test_byte_1_refused : refuses (exec (.byte 1#8 0xA5#8) atRest) (.modeNotAdmitted 1#8) = true := by decide

/-- V15b: no line moves. -/
theorem test_delay_4500 : gives (exec (.delay 4500#13) atRest) (fun t =>
    t.trace == [.wait 4500] && levels t == levels atRest) = true := by decide

/-- V17a: levels 1, 1, 1 from the parameters, four events, no write. -/
theorem test_acq_ones :
    gives (exec .acq { start with params := ⟨1, 2, 3, 4, true, true, true, 9⟩ }) (fun t =>
      t.trace == [.acqOut .strobe 1 true, .acqOut .clock 2 true, .acqOut .data 3 true, .acqIn 4 9] &&
      levels t == (.level true, .level true, .level true)) = true := by decide

/-- V17a, last column: an observer that counts acquisition as an edge sees one frame of unspecified value (R133), and
none when the edge is a falling one. -/
theorem test_acq_edge_frame : gives (exec .acq start) (fun t =>
    frames { someReceiver with acq := [some true, some true, none] } t.trace == [.frame 0xC3#8] &&
    frames { someReceiver with acq := [some false, some true, none] } t.trace == []) = true := by decide

/-- V7a's frame as R130 sees it from levels 1, 0, 0: STROBE falls, CLOCK does not, DATA rises once, STROBE rises. -/
theorem test_waveform_frame_FF : gives (exec (.frame 0xFF#8) atRest) (fun t =>
    waveform [] atRest.lines t.trace ==
      [.edge .strobe false, .edge .data true] ++
        (List.replicate 8 [WaveItem.edge .clock true, .edge .clock false]).flatten ++ [.edge .strobe true]) = true := by
  decide

/-- R130: waits stand at their places between the transitions. -/
theorem test_waveform_wait :
    waveform [] atRest.lines [.w .clock true, .wait 37, .w .clock true, .w .clock false] =
      [.edge .clock true, .wait 37, .edge .clock false] := by decide

/-- V17. -/
theorem test_s1 : gives (exec .s1 start) (fun t =>
    t.trace == [.acqOut .strobe 1 false, .acqOut .clock 2 false, .acqOut .data 3 false, .acqIn 4 0] &&
    levels t == (.level false, .level false, .level false)) = true := by decide

/-- V18. -/
theorem test_s2 : gives (exec .s2 start) (fun t => seen t == [.frame 0x00#8]) = true := by decide
/-- V19. -/
theorem test_s3 : gives (exec .s3 atRest) (fun t => seen t == [.frame 0x38#8, .frame 0x30#8, .wait 4500]) = true := by decide
/-- V20. -/
theorem test_s4 : gives (exec .s4 atRest) (fun t => seen t == [.frame 0x38#8, .frame 0x30#8, .wait 150]) = true := by decide
/-- V21. -/
theorem test_s5 : gives (exec .s5 atRest) (fun t => seen t == [.frame 0x38#8, .frame 0x30#8]) = true := by decide
/-- V22. -/
theorem test_s6 : gives (exec .s6 atRest) (fun t => seen t == [.frame 0x28#8, .frame 0x20#8]) = true := by decide

/-- V23. -/
theorem test_s7 : gives (exec .s7 atRest) (fun t => seen t ==
    [.frame 0x28#8, .frame 0x20#8, .frame 0x88#8, .frame 0x80#8, .wait 37,
     .frame 0x08#8, .frame 0x00#8, .frame 0x68#8, .frame 0x60#8, .wait 37,
     .frame 0x08#8, .frame 0x00#8, .frame 0xC8#8, .frame 0xC0#8, .wait 37,
     .frame 0x08#8, .frame 0x00#8, .frame 0x18#8, .frame 0x10#8, .wait 37, .wait 2000] && t.idx == 4#5) = true := by
  decide +kernel

/-- V24. -/
theorem test_s8 : gives (exec .s8 atRest) (fun t =>
    seen t == [.frame 0x88#8, .frame 0x80#8, .frame 0x08#8, .frame 0x00#8, .wait 37]) = true := by decide

/-- V16 and V25: 2180 events, the first character Z, the last p. -/
theorem test_s9 : gives (exec .s9 atRest) (fun t => t.log.length == 2180 && t.idx == 20#5 &&
    (seen t).take 5 == [.frame 0x5A#8, .frame 0x52#8, .frame 0xAA#8, .frame 0xA2#8, .wait 37] &&
    (seen t).drop 95 == [.frame 0x7A#8, .frame 0x72#8, .frame 0x0A#8, .frame 0x02#8, .wait 37]) = true := by
  decide +kernel

/-- V26. -/
theorem test_s10 : gives (exec .s10 atRest) (fun t =>
    seen t == [.frame 0x98#8, .frame 0x90#8, .frame 0x48#8, .frame 0x40#8, .wait 37]) = true := by decide

/-- V27: "V1.2". -/
theorem test_s11_v12 : gives (exec .s11 (withVersion v12)) (fun t => seen t ==
    [.frame 0x5A#8, .frame 0x52#8, .frame 0x6A#8, .frame 0x62#8, .wait 37,
     .frame 0x3A#8, .frame 0x32#8, .frame 0x1A#8, .frame 0x12#8, .wait 37,
     .frame 0x2A#8, .frame 0x22#8, .frame 0xEA#8, .frame 0xE2#8, .wait 37,
     .frame 0x3A#8, .frame 0x32#8, .frame 0x2A#8, .frame 0x22#8, .wait 37] && t.idx == 4#5) = true := by
  decide +kernel

/-- V29: 20 characters and no readable index 20. -/
theorem test_s11_twenty : gives (exec .s11 (withVersion (List.replicate 20 0x41#8))) (fun t =>
    t.log.length == 2180 && t.idx == 20#5) = true := by decide +kernel

/-- P3: 3520 events, IDX 4, levels 1, 0, 0, STEP 0, waits 7760 microseconds. -/
theorem test_boot_v12 : gives (exec .boot (start.loadVersion v12)) (fun t =>
    t.log.length == 3520 && t.idx == 4#5 && levels t == (.level true, .level false, .level false) && t.stepReg == 0#4 &&
    waitSum t.log == 7760) = true := by decide +kernel

/-- R101: not while it runs. -/
theorem test_boot_busy : refuses (exec .boot (start.setStep 3#4)) .bootWhileBusy = true := by decide

/-! ## Steps -/

/-- STEP selects the step and moves on (R16, R57). -/
theorem test_step_sequencer : gives (step (atRest.setStep 8#4)) (fun t => t.stepReg == 9#4) = true := by decide

/-- The placed word is what runs, from reset. -/
theorem test_withFetchWord_s10 : gives (step (State.reset.withFetchWord 8 10)) (fun t =>
    t.stepReg == 11#4 && t.log.length == 109) = true := by decide

/-! ## Witnesses: each shows a state and operands that meet a statement's hypotheses -/

theorem witness_EncodedInstructionsDecodeBack : (Instr.byte 2#8 0xFF#8).wellFormed = true := by decide

theorem witness_DecodedCodesEncodeBack :
    decode (.request ⟨.delayUnit, [0xFF#8, 0x1F#8]⟩) = .ok (.delay 8191#13) := by decide

/-- Each clause at the least value past its bound. -/
theorem witness_InadmissibleCodesAreRejected :
    (0x01#8 &&& 0x0D#8 ≠ 0#8 ∧ 0x04#8 &&& 0x0D#8 ≠ 0#8 ∧ 0x08#8 &&& 0x0D#8 ≠ 0#8) ∧ ((1#8 ≠ 0#8 ∧ 1#8 ≠ 2#8) ∧
    (3#8 ≠ 0#8 ∧ 3#8 ≠ 2#8)) ∧ 32 ≤ (32#8).toNat ∧ (0x01#8 &&& 0x05#8 ≠ 0#8 ∧ 0x04#8 &&& 0x05#8 ≠ 0#8) ∧
    12 ≤ (12#4).toNat := by decide

theorem witness_StepRunsTheOldestRequest_ok :
    ({ start with requests := [⟨.transmitter, [0xA5#8]⟩] } : State).stepReg = 0#4 ∧
    decode (.request ⟨.transmitter, [0xA5#8]⟩) = .ok (.xfer 0xA5#8) := by decide

theorem witness_StepRunsTheOldestRequest_reject :
    ({ start with requests := [⟨.nibbleSend, [0x38#8]⟩] } : State).stepReg = 0#4 ∧
    decode (.request ⟨.nibbleSend, [0x38#8]⟩) = .reject .nibLowBits := by decide

/-- The last position, 11, with a version string that completes. -/
theorem witness_StepRunsTheSequencerStep_next : ∃ t, ((withVersion [0x00#8]).setStep 11#4).stepReg ≠ 0#4 ∧
    decode (.step 11#4) = .ok .s11 ∧ exec .s11 ((withVersion [0x00#8]).setStep 11#4) = .next t :=
  ⟨_, by decide, by decide, rfl⟩

theorem witness_StepRunsTheSequencerStep_refused :
    decode (.step 11#4) = .ok .s11 ∧
    exec .s11 (atRest.setStep 11#4) = .refused (.storeUnreadable .version 0) := ⟨by decide, rfl⟩

theorem witness_IdleMachineStaysAsItIs : start.stepReg = 0#4 ∧ start.requests = [] := by decide

theorem witness_UnreachablePositionIsRefused : 12 ≤ (start.setStep 12#4).stepReg.toNat := by decide

theorem witness_PositionOnlyAdvances :
    (∃ t, step start = .next t) ∧ (∃ t, step (atRest.setStep 1#4) = .next t) ∧
    (∃ t, step ((withVersion [0x00#8]).setStep 11#4) = .next t) := ⟨⟨_, rfl⟩, ⟨_, rfl⟩, ⟨_, rfl⟩⟩

theorem witness_XferEdgesCarryTheBits : atRest.lines.clock = .level false := by decide

theorem witness_NibSendsEnableSetThenClear : 0xF2#8 &&& 0x0D#8 = 0#8 ∧ 0x38#8 &&& 0x0D#8 ≠ 0#8 := by decide

theorem witness_ByteSendsTwoNibblesThenSettles :
    (0#8 = 0#8 ∨ 0#8 = 2#8) ∧ (2#8 = 0#8 ∨ 2#8 = 2#8) ∧ (1#8 ≠ 0#8 ∧ 1#8 ≠ 2#8) ∧ (3#8 ≠ 0#8 ∧ 3#8 ≠ 2#8) := by decide

theorem witness_WorkingRegistersKeepTheLastOperands : 0xF2#8 &&& 0x0D#8 = 0#8 ∧ (2#8 = 0#8 ∨ 2#8 = 2#8) := by decide

theorem witness_ByteIsSeenAsItsTwoNibbles : (2#8 = 0#8 ∨ 2#8 = 2#8) := by decide

theorem witness_SyncStepSendsTheZeroFrame : start.sessionMode = 0#2 := by decide

theorem witness_SingleNibbleStepsSendTheirFrames : atRest.sessionMode = 0#2 := by decide

/-- The three shapes of a version string: empty, terminated early, 20 long with no terminator (X4). -/
theorem witness_VersionStepSendsUpToTheTerminator :
    (withVersion [0x00#8]).VersionIs [] ∧ (withVersion v12).VersionIs [0x56#8, 0x31#8, 0x2E#8, 0x32#8] ∧
    (withVersion (List.replicate 20 0x41#8)).VersionIs (List.replicate 20 0x41#8) := by decide

/-- The least and the greatest index. -/
theorem witness_UnreadableVersionIsRefused :
    (0 < 20 ∧ cellRead start.version 0 = none) ∧
    (cellRead (withVersion (List.replicate 19 0x41#8)).version 19 = none ∧
      ∀ i < 19, cellRead (withVersion (List.replicate 19 0x41#8)).version i = some 0x41#8 ∧ 0x41#8 ≠ 0x00#8) := by decide

/-- A store that differs beyond the terminator. -/
theorem witness_VersionBeyondTheTerminatorIsNotRead :
    (withVersion v12).VersionIs [0x56#8, 0x31#8, 0x2E#8, 0x32#8] ∧ (withVersion v12).stepReg = 0#4 ∧
    ∀ i ≤ 4, i < 20 → cellRead (cellLoad [] 0 (v12.take 5)) i = cellRead (withVersion v12).version i := by decide

/-- The hypotheses of every statement about a run of BOOT, for "V1.2" and for the empty string, from unacquired lines. -/
theorem witness_BootEmitsTheWholeSequence :
    (start.loadVersion v12).stepReg = 0#4 ∧ (start.loadVersion v12).sessionMode = 0#2 ∧
    (start.loadVersion v12).VersionIs [0x56#8, 0x31#8, 0x2E#8, 0x32#8] ∧
    (start.loadVersion [0x00#8]).VersionIs [] := by decide

theorem witness_SecondBootRepeatsTheTrace :
    (start.loadVersion v12).stepReg = 0#4 ∧ (start.loadVersion v12).sessionMode = 0#2 ∧
    (start.loadVersion v12).VersionIs [0x56#8, 0x31#8, 0x2E#8, 0x32#8] := by decide

theorem witness_BootCountsAndDuration :
    (start.loadVersion (List.replicate 20 0x41#8)).stepReg = 0#4 ∧
    (start.loadVersion (List.replicate 20 0x41#8)).sessionMode = 0#2 ∧
    (start.loadVersion (List.replicate 20 0x41#8)).VersionIs (List.replicate 20 0x41#8) := by decide

theorem witness_BootWaveformDiffersOnlyAtAcquisition :
    (start.loadVersion [0x00#8]).stepReg = 0#4 ∧ (start.loadVersion [0x00#8]).sessionMode = 0#2 ∧
    (start.loadVersion [0x00#8]).VersionIs [] := by decide

theorem witness_BootIsSeenAsItsBytes :
    (withVersion v12).stepReg = 0#4 ∧ (withVersion v12).sessionMode = 0#2 ∧
    (withVersion v12).VersionIs [0x56#8, 0x31#8, 0x2E#8, 0x32#8] := by decide

/-- With and without a last character. -/
theorem witness_OutputsRestAtTheLastFrame :
    ((withVersion v12).stepReg = 0#4 ∧ (withVersion v12).sessionMode = 0#2 ∧
      (withVersion v12).VersionIs [0x56#8, 0x31#8, 0x2E#8, 0x32#8]) ∧
    ((withVersion [0x00#8]).stepReg = 0#4 ∧ (withVersion [0x00#8]).sessionMode = 0#2 ∧
      (withVersion [0x00#8]).VersionIs []) := by decide

theorem witness_BootWhileBusyIsRefused : (start.setStep 1#4).stepReg ≠ 0#4 := by decide

theorem witness_BootIsElevenSequencerSteps : (start.loadVersion v12).stepReg = 0#4 := by decide

theorem witness_FixedCommandSequenceOfStepsThreeToEight :
    (atRest.setStep 3#4).stepReg = 3#4 ∧ (atRest.setStep 3#4).sessionMode = 0#2 := by decide

theorem witness_NibIsSeenAsOneNibbleWrite : 0x52#8 &&& 0x0D#8 = 0#8 := by decide

/-- A state that meets every invariant and steps: the hypotheses of the statements about `step`. -/
def asked : State := { start with requests := [⟨.pinBinding, [1#8]⟩] }

theorem witness_StepKeepsRegistersLegal : ∃ t, asked.RegistersLegal ∧ step asked = .next t := ⟨_, by decide, rfl⟩

theorem witness_StepKeepsLinesFollowingTheTrace : ∃ t, asked.LinesFollowTrace ∧ step asked = .next t :=
  ⟨_, by decide, rfl⟩

theorem witness_LatchIsTheLastLevelInTheTrace : ∃ t, step asked = .next t ∧ t.LinesFollowTrace := ⟨_, rfl, by decide⟩

theorem witness_BoundLinesAreNeverReleased :
    ∃ t u, step asked = .next t ∧ t.LinesOwned ∧ t.lines.strobePin ≠ .unbound ∧ t.lines.clockPin ≠ .unbound ∧
      t.lines.dataPin ≠ .unbound ∧ t.lines.unusedPin ≠ .unbound ∧
      step { t with requests := [⟨.pinBinding, [1#8]⟩] } = .next u :=
  ⟨_, _, rfl, by decide, by decide, by decide, by decide, by decide, rfl⟩

theorem witness_StepWritesNoStoreAndNoParameter :
    ∃ t, step { asked with version := (withVersion v12).version } = .next t ∧
      ({ asked with version := (withVersion v12).version } : State).VersionCanonical := ⟨_, rfl, by decide⟩

theorem witness_TraceOnlyGrows : ∃ t, step asked = .next t := ⟨_, rfl⟩

/-- BOOT, the instruction with the most conditions. -/
theorem witness_AdmittedOperandsAlwaysComplete :
    Instr.boot.wellFormed = true ∧ (start.loadVersion v12).stepReg = 0#4 ∧
    ∃ cs, (start.loadVersion v12).VersionIs cs := ⟨by decide, by decide, [0x56#8, 0x31#8, 0x2E#8, 0x32#8], by decide⟩

theorem witness_OnlyAcquisitionBinds : ∃ t, Instr.delay 37#13 ≠ .acq ∧ Instr.delay 37#13 ≠ .s1 ∧
    Instr.delay 37#13 ≠ .boot ∧ exec (.delay 37#13) atRest = .next t := ⟨_, by decide, by decide, by decide, rfl⟩

end Sys2Proof.Tests
end

section
/-! What one step can do, said once, and the statements of the family 10_state drawn from it. -/

namespace Sys2Proof.Machine

variable {s t : State}

/-- A step that answers a next state is one of three: the machine is idle with nothing asked and stays as it is; it is
busy, runs the instruction STEP selects and advances STEP; or it is idle and runs the oldest request (R16, R56, R57). -/
theorem step_cases (h : step s = .next t) :
    (s.busy = false ∧ s.requests = [] ∧ t = s) ∨
    (s.busy = true ∧ ∃ i u, decode (.step s.stepReg) = .ok i ∧ exec i s = .next u ∧ t = u.advance) ∨
    (s.busy = false ∧ ∃ r rest i, s.requests = r :: rest ∧ decode (.request r) = .ok i ∧
      exec i { s with requests := rest } = .next t) := by
  cases hb : s.busy with
  | true =>
    simp only [step, fetch, hb, if_true] at h
    cases hd : decode (.step s.stepReg) with
    | reject e => simp [hd] at h
    | ok i =>
      simp only [hd, retire] at h
      obtain ⟨u, hu, ht⟩ := andThen_next h
      injection ht with ht
      exact .inr (.inl ⟨rfl, i, u, rfl, hu, ht.symm⟩)
  | false =>
    cases hr : s.requests with
    | nil =>
      simp only [step, fetch, hb, hr, Bool.false_eq_true, if_false] at h
      injection h with h
      exact .inl ⟨rfl, rfl, h.symm⟩
    | cons r rest =>
      simp only [step, fetch, hb, hr, Bool.false_eq_true, if_false] at h
      cases hd : decode (.request r) with
      | reject e => simp [hd] at h
      | ok i =>
        simp only [hd, retire] at h
        exact .inr (.inr ⟨rfl, r, rest, i, rfl, hd, h⟩)

/-- A whole step is one move, from the state with the request it takes already gone: `advance` writes STEP alone, of
which a move does not speak. -/
theorem step_moves (h : step s = .next t) : ∃ rest, rest <:+ s.requests ∧ Moves { s with requests := rest } t := by
  obtain ⟨-, -, rfl⟩ | ⟨-, i, u, -, hu, rfl⟩ | ⟨-, r, rest, i, hr, -, ht⟩ := step_cases h
  · exact ⟨t.requests, List.suffix_rfl, .refl t⟩
  · exact ⟨s.requests, List.suffix_rfl, (exec_moves i hu).trans (moves_setStep u _)⟩
  · exact ⟨rest, hr ▸ List.suffix_cons r rest, exec_moves i ht⟩

end Sys2Proof.Machine
end

section
open Sys2Proof Sys2Proof.Machine

/-- Settles O48: a step is a move, and reads and the canonical form depend on VERSION alone. -/
theorem stepWritesNoStoreAndNoParameter : Obligations.StepWritesNoStoreAndNoParameter := by
  intro s t h
  obtain ⟨rest, -, hm⟩ := step_moves h
  have hv : t.version = s.version := hm.version
  refine ⟨hv, hm.params, hm.sessionMode, fun i => ?_, fun hc => ?_⟩
  · rw [hv]
  · rwa [State.VersionCanonical, hv]

end

section
/-! Why a code is rejected: the facts the decoder's rejecting branches turn on, and the statement of the family
30_encoding drawn from them. -/

namespace Sys2Proof

/-- STEP past 11 names no step (R57, R59). -/
theorem decodeStep_of_twelve_le {n : BitVec 4} (h : 12 ≤ n.toNat) : decodeStep n = .reject .stepUnreachable := by
  obtain ⟨k, hk⟩ := Nat.exists_eq_add_of_le' h
  rw [decodeStep, hk]
  rfl

/-- A frame byte is its payload above its low nibble (R50). -/
theorem frameByteOf_extractLsb' (b : Byte) : frameByteOf (b.extractLsb' 4 4) (b.extractLsb' 0 4) = b := by
  calc frameByteOf (b.extractLsb' 4 4) (b.extractLsb' 0 4)
    _ = b.extractLsb' 0 8 := BitVec.extractLsb'_append_extractLsb'_eq_extractLsb' rfl
    _ = b := BitVec.extractLsb'_eq_self

/-- Bits 2 and 0 of a frame byte lie in its low nibble. -/
theorem frameByteOf_and_five (p low : Nibble) : frameByteOf p low &&& 0x05#8 = frameByteOf 0#4 (low &&& 0x5#4) := by
  calc frameByteOf p low &&& 0x05#8
    _ = (p ++ low) &&& (0x0#4 ++ 0x5#4) := rfl
    _ = (p &&& 0x0#4) ++ (low &&& 0x5#4) := BitVec.and_append
    _ = frameByteOf 0#4 (low &&& 0x5#4) := by rw [BitVec.and_zero]; rfl

/-- Each class's low nibble (8, 0, A, 2) has bits 2 and 0 clear, so a byte with one of them set is of no class (R51). -/
theorem decodeFrameClass_of_and_five_ne_zero {b : Byte} (h : b &&& 0x05#8 ≠ 0#8) :
    decodeFrameClass b = .reject .noFrameClass := by
  rw [← frameByteOf_extractLsb' b, frameByteOf_and_five] at h
  have low_ne {low : Nibble} (hlow : frameByteOf 0#4 (low &&& 0x5#4) = 0#8) : b.extractLsb' 0 4 ≠ low :=
    fun he => h (he ▸ hlow)
  simp only [decodeFrameClass, low_ne (low := 0x8#4) rfl, low_ne (low := 0x0#4) rfl, low_ne (low := 0xA#4) rfl,
    low_ne (low := 0x2#4) rfl, if_false]

/-- A delay whose high byte is 32 or more has one of bits 15:13 set: more than 13 bits (R59). -/
theorem extractLsb'_five_three_ne_zero {hi : Byte} (h : 32 ≤ hi.toNat) : hi.extractLsb' 5 3 ≠ 0#3 := by
  intro h0
  have hdiv : hi.toNat / 32 % 8 = 0 := by
    simpa [BitVec.extractLsb'_toNat, Nat.shiftRight_eq_div_pow] using congrArg BitVec.toNat h0
  have hlt : hi.toNat < 256 := hi.isLt
  omega

end Sys2Proof
end

section
open Sys2Proof Sys2Proof.Machine

/-- Settles O4: each clause is the rejecting branch of the decoder of its port, or of STEP's. -/
theorem inadmissibleCodesAreRejected : Obligations.InadmissibleCodesAreRejected := by
  refine ⟨fun x hx => ?nib, fun m v hm0 hm2 => ?mode, fun lo hi hhi => ?delay,
    fun b hb => ?frame, fun n hn => ?step⟩
  case nib => simp [decode, decodeOneByte, nibAdmitted, hx]
  case mode => simp [decode, decodeTwoBytes, modeAdmitted_iff, hm0, hm2]
  case delay => simp [decode, decodeTwoBytes, extractLsb'_five_three_ne_zero hhi]
  case frame => exact decodeFrameClass_of_and_five_ne_zero hb
  case step => exact decodeStep_of_twelve_le hn

end

section
/-! What FRAME and NIB leave behind, each said once as an equation of the whole state, and the statements of the family
41_nibble_framer drawn from them. -/

namespace Sys2Proof

/-- The check R59 makes of a nibble value, as the equation R81 writes. -/
theorem nibAdmitted_iff (x : Byte) : nibAdmitted x = true ↔ x &&& 0x0D#8 = 0#8 := by
  simp [nibAdmitted]

end Sys2Proof

namespace Sys2Proof.Machine

variable (s : State)

/-- FRAME leaves the lines at rest with DATA at bit 0 of its byte (R80). -/
theorem State.frame_eq_rest (b : Byte) : s.frame b = { s with
    lines := s.lines.rest (b.getLsbD 0), fb := b, sr := b, bc := 0#4, log := (frameEvents b).reverse ++ s.log } := by
  rw [State.frame_eq, State.after, Lines.replay_frame]

/-- NIB of an admitted value leaves the lines at rest with DATA 0, since bit 0 of the value is 0 (R59, R81). -/
theorem State.nib_eq_rest {x : Byte} (h : nibAdmitted x = true) : s.nib x = { s with
    lines := s.lines.rest false, ph := 1#1, fb := x, sr := x, bc := 0#4, log := (nibEvents x).reverse ++ s.log } := by
  rw [State.nib_eq, State.after, Lines.replay_nib, nibAdmitted_bit0 h]

theorem exec_frame (b : Byte) : exec (.frame b) s = .next (s.frame b) := rfl

/-- NIB of an admitted value completes (R81). -/
theorem exec_nib_of_admitted {x : Byte} (h : nibAdmitted x = true) : exec (.nib x) s = .next (s.nib x) :=
  if_pos h

/-- NIB of any other value is refused (R59). -/
theorem exec_nib_of_not_admitted {x : Byte} (h : ¬ nibAdmitted x = true) :
    exec (.nib x) s = .refused (.nibNotAdmitted x) :=
  if_neg h

end Sys2Proof.Machine
end

section
open Sys2Proof Sys2Proof.Machine

/-- Settles O14: an admitted value runs NIB, whose trace and end state are known, and any other is refused. -/
theorem nibSendsEnableSetThenClear : Obligations.NibSendsEnableSetThenClear := by
  refine fun x s => ⟨fun hx => ?admitted, fun hx => ?refused⟩
  case admitted =>
    have h : nibAdmitted x = true := (nibAdmitted_iff x).2 hx
    rw [exec_nib_of_admitted s h, State.nib_eq_rest s h]
    exact ⟨_, rfl, s.trace_after (nibEvents x), rfl⟩
  case refused => exact exec_nib_of_not_admitted s (mt (nibAdmitted_iff x).1 hx)

/-- Settles O12: FRAME always completes, with the trace and end state of its equation. -/
theorem frameWrapsTheByteInAStrobe : Obligations.FrameWrapsTheByteInAStrobe := by
  intro b s
  rw [exec_frame, State.frame_eq_rest]
  exact ⟨_, rfl, s.trace_after (frameEvents b), rfl⟩

end

section
/-! What BYTE leaves behind, said once as an equation of the whole state, and the statement of the family 42_byte_framer
drawn from it. -/

namespace Sys2Proof.Machine

variable (s : State) {m : Byte} (v : Byte)

/-- BYTE of an admitted mode leaves the lines at rest, DATA 0 as bit 0 of its last nibble value is (R55, R90). -/
theorem State.byte_eq_rest (h : modeAdmitted m = true) : s.byte m v = { s with
    lines := s.lines.rest false, md := m.setWidth 2, val := v, ns := 1#1, ph := 1#1, fb := loNibble m v,
    sr := loNibble m v, bc := 0#4, dly := 0#13, log := (byteEvents m v).reverse ++ s.log } := by
  rw [State.byte_eq s m v h, State.after, Lines.replay_byte _ _ _ h]

/-- BYTE of an admitted mode completes (R90). -/
theorem exec_byte_of_admitted (h : modeAdmitted m = true) : exec (.byte m v) s = .next (s.byte m v) :=
  if_pos h

/-- BYTE of any other mode is refused (R59). -/
theorem exec_byte_of_not_admitted (h : ¬ modeAdmitted m = true) :
    exec (.byte m v) s = .refused (.modeNotAdmitted m) :=
  if_neg h

end Sys2Proof.Machine
end

section
open Sys2Proof Sys2Proof.Machine

/-- Settles O15: an admitted mode runs BYTE, whose trace and end state are known, and any other is refused. -/
theorem byteSendsTwoNibblesThenSettles : Obligations.ByteSendsTwoNibblesThenSettles := by
  refine fun m v s => ⟨fun hm => ?admitted, fun hm0 hm2 => ?refused⟩
  case admitted =>
    have h : modeAdmitted m = true := (modeAdmitted_iff m).2 hm
    rw [exec_byte_of_admitted s v h, State.byte_eq_rest s v h]
    exact ⟨_, rfl, s.trace_after (byteEvents m v), rfl⟩
  case refused => exact exec_byte_of_not_admitted s v (mt (modeAdmitted_iff m).1 (not_or.2 ⟨hm0, hm2⟩))

end

section
/-! What the sending loops of S7, S9 and S11 do from IDX 0, said once as an equation of each step, and the statements of
the family 43_boot_sequencer drawn from them. -/

namespace Sys2Proof.Machine

variable (s : State) {m : Byte} (cs : List Byte)

/-- A run of bytes leaves the lines as its last byte does, and an empty one does not touch them (R55, R90). -/
theorem Lines.replay_bytes (hm : modeAdmitted m = true) (ls : Lines) :
    ls.replay (cs.flatMap (byteEvents m)) = if cs = [] then ls else ls.rest false := by
  induction cs generalizing ls with
  | nil => rfl
  | cons c cs ih =>
    rw [List.flatMap_cons, Lines.replay_append, Lines.replay_byte _ _ _ hm, ih, if_neg (List.cons_ne_nil c cs)]
    split <;> rfl

/-- What the loop's passes from IDX 0 leave behind: the events of each byte, the lines, and IDX at the number of bytes
(R17). -/
theorem State.sendAll_from_zero (hm : modeAdmitted m = true) :
    ((s.setIdx 0#5).sendAll m cs).trace = s.trace ++ cs.flatMap (byteEvents m) ∧
    ((s.setIdx 0#5).sendAll m cs).lines = (if cs = [] then s.lines else s.lines.rest false) ∧
    ((s.setIdx 0#5).sendAll m cs).idx = BitVec.ofNat 5 cs.length := by
  obtain ⟨hlines, htrace⟩ := State.sendAll_events m hm cs (s.setIdx 0#5)
  obtain ⟨hidx, -⟩ := State.sendAll_control m cs (s.setIdx 0#5)
  refine ⟨htrace, ?_, ?_⟩
  · rw [hlines, State.setIdx_lines, Lines.replay_bytes cs hm]
  · rw [hidx, State.setIdx_idx, BitVec.zero_add]

@[simp] theorem State.memRead_setIdx (n : BitVec 5) (sp : Space) (i : Nat) :
    (s.setIdx n).memRead sp i = s.memRead sp i := by
  cases sp <;> rfl

/-- Sending writes no store (R23). -/
@[simp] theorem State.memRead_sendAll (sp : Space) (i : Nat) : (s.sendAll m cs).memRead sp i = s.memRead sp i := by
  obtain ⟨-, -, -, hversion, -⟩ := State.sendAll_control m cs s
  cases sp with
  | banner | cfg => rfl
  | version => simp only [State.memRead, hversion]

/-- From IDX 0 the loop sends exactly `cs` when `cs` stands at the first indices, with no terminator among it where one is
looked for, and ends there: at the bound, or at a terminator (R115, R117, R119). -/
theorem sendRun_from_zero {sp : Space} {bound : Nat} {stop : Bool} (hb : bound ≤ 20) (hlen : cs.length ≤ bound)
    (hread : ∀ i (h : i < cs.length), s.memRead sp i = some cs[i])
    (hstop : stop = true → ∀ i (h : i < cs.length), cs[i] ≠ 0x00#8)
    (hend : cs.length < bound → stop = true ∧ s.memRead sp cs.length = some 0x00#8) :
    sendRun sp m bound stop bound (s.setIdx 0#5) = .next ((s.setIdx 0#5).sendAll m cs) := by
  obtain ⟨fuel, rfl⟩ := Nat.exists_eq_add_of_le' hlen
  rw [sendRun_sends sp m _ hb stop cs fuel _ (by simp) (by simpa using hread) hstop]
  cases fuel with
  | zero => rfl
  | succ n =>
    obtain ⟨rfl, hzero⟩ := hend (by omega)
    have hidx : ((s.setIdx 0#5).sendAll m cs).idx.toNat = cs.length := by
      rw [(State.sendAll_control m cs _).1, State.setIdx_idx, BitVec.zero_add, BitVec.toNat_ofNat]
      exact Nat.mod_eq_of_lt (by omega)
    exact sendRun_at_terminator sp m _ _ _ (by rw [hidx, State.memRead_sendAll, State.memRead_setIdx, hzero])

/-- S7 sends the bytes of CFG and then waits (R115). -/
theorem execS7_eq : execS7 s = .next (((s.setIdx 0#5).sendAll modeCmd cfg).wait tClear) := by
  have h : sendRun .cfg modeCmd cfg.length false cfg.length (s.setIdx 0#5) = .next ((s.setIdx 0#5).sendAll modeCmd cfg) :=
    sendRun_from_zero s cfg (by decide) le_rfl (fun _ => List.getElem?_eq_getElem) nofun
      (fun hlt => absurd hlt (Nat.lt_irrefl _))
  rw [execS7, h, andThen]

/-- S9 sends the bytes of BANNER (R117). -/
theorem execS9_eq : execS9 s = .next ((s.setIdx 0#5).sendAll modeChr banner) :=
  sendRun_from_zero s banner le_rfl le_rfl (fun _ => List.getElem?_eq_getElem) nofun
    (fun hlt => absurd hlt (Nat.lt_irrefl _))

/-- S11 sends the characters of VERSION (R119). -/
theorem execS11_eq {cs : List Byte} (h : s.VersionIs cs) : execS11 s = .next ((s.setIdx 0#5).sendAll modeChr cs) := by
  obtain ⟨hlen, hchars, hend⟩ := h
  exact sendRun_from_zero s cs le_rfl hlen (fun i hi => (hchars ⟨i, hi⟩).1) (fun _ i hi => (hchars ⟨i, hi⟩).2)
    (fun hlt => ⟨rfl, hend hlt⟩)

/-- The bytes of CFG in command mode, then T_CLEAR, are step 7's events (R115). -/
theorem cfg_events : cfg.flatMap (byteEvents modeCmd) ++ [.wait tClear.toNat] = configEvents := by
  simp [cfg, modeCmd, tClear, configEvents]

/-- A move that keeps STEP changes only the lines, IDX, the working registers and the trace. -/
theorem Moves.eq_withWorking {s t : State} {ls : Lines} {n : BitVec 5} (h : Moves s t) (hstep : t.stepReg = s.stepReg)
    (hlines : t.lines = ls) (hidx : t.idx = n) : t = { s.withWorking t with lines := ls, idx := n } := by
  rw [State.withWorking, ← hlines, ← hidx, ← hstep, ← h.sessionMode, ← h.version, ← h.params, ← h.requests]

/-- BYTE of an admitted mode adds its events and changes only the lines, the working registers and the trace (R90). -/
theorem State.byte_sends (v : Byte) (hm : modeAdmitted m = true) :
    (s.byte m v).trace = s.trace ++ byteEvents m v ∧
    s.byte m v = { s.withWorking (s.byte m v) with lines := s.lines.rest false } := by
  rw [State.byte_eq_rest s v hm]
  exact ⟨s.trace_after (byteEvents m v), rfl⟩

end Sys2Proof.Machine
end

section
open Sys2Proof Sys2Proof.Machine

/-- Settles O23: S7 is the loop over CFG and one wait, and what a move does not speak of the loop's passes say. -/
theorem configurationStepSendsFourBytes : Obligations.ConfigurationStepSendsFourBytes := by
  intro s
  obtain ⟨htrace, hlines, hidx⟩ := s.sendAll_from_zero (m := modeCmd) cfg rfl
  obtain ⟨hmoves, hstep⟩ := moves_execS7 (execS7_eq s)
  refine ⟨_, execS7_eq s, ?trace, ?frame⟩
  case trace => rw [State.wait_trace, htrace, List.append_assoc, cfg_events]; rfl
  case frame => exact hmoves.eq_withWorking hstep hlines hidx

/-- Settles O24: each cursor step is BYTE of an admitted mode, whose trace and end state are known. -/
theorem cursorStepsSendTheirCommands : Obligations.CursorStepsSendTheirCommands := by
  exact fun s => ⟨⟨_, rfl, s.byte_sends cursorLine1 rfl⟩, ⟨_, rfl, s.byte_sends cursorLine2 rfl⟩⟩

/-- Settles O25: S9 is the loop over BANNER, a move that keeps STEP. -/
theorem bannerStepSendsTwentyCharacters : Obligations.BannerStepSendsTwentyCharacters := by
  intro s
  obtain ⟨htrace, hlines, hidx⟩ := s.sendAll_from_zero (m := modeChr) banner rfl
  obtain ⟨hmoves, hstep⟩ := moves_execS9 (execS9_eq s)
  exact ⟨_, execS9_eq s, htrace, rfl, hlines, hidx, hstep, hmoves.sessionMode, hmoves.version, hmoves.params,
    hmoves.requests⟩

/-- Settles O27: S11 is the loop over the characters of VERSION, a move that keeps STEP; with no character the loop makes
no pass. -/
theorem versionStepSendsUpToTheTerminator : Obligations.VersionStepSendsUpToTheTerminator := by
  intro s cs hcs
  obtain ⟨htrace, hlines, hidx⟩ := s.sendAll_from_zero (m := modeChr) cs rfl
  obtain ⟨hmoves, hstep⟩ := moves_execS11 (execS11_eq s hcs)
  refine ⟨_, execS11_eq s hcs, htrace, hlines, hidx, hstep, hmoves.sessionMode, hmoves.version, hmoves.params,
    hmoves.requests, ?empty⟩
  case empty => rintro rfl; rfl

end

section
/-! Decoding an encoded instruction and encoding a decoded one, port by port, and the three statements about codes drawn
from them. -/

namespace Sys2Proof

/-- The frame class of a byte is told by its low nibble, and its payload is the high one (R50, R51). -/
theorem decodeFrameClass_frameByteOf (p low : Nibble) : decodeFrameClass (frameByteOf p low) =
    if low = 0x8#4 then .ok (.frmCmdE1 p) else if low = 0x0#4 then .ok (.frmCmdE0 p)
    else if low = 0xA#4 then .ok (.frmChrE1 p) else if low = 0x2#4 then .ok (.frmChrE0 p)
    else .reject .noFrameClass := by
  simp only [decodeFrameClass, frameByteOf, BitVec.extractLsb'_append_eq_left, BitVec.extractLsb'_append_eq_right]

/-- The high operand byte of a delay has three zero bits above the delay's own five (R56). -/
theorem delayHigh_eq_append (x : BitVec 5) : (x.setWidth 8 : Byte) = 0#3 ++ x :=
  BitVec.setWidth_eq_append (by decide)

/-- A 13-bit value is its upper five bits above its lower eight. -/
theorem append_extractLsb'_delay (n : BitVec 13) : n.extractLsb' 8 5 ++ n.extractLsb' 0 8 = n :=
  BitVec.extractLsb'_append_extractLsb' (w := 5)

theorem decode_encode_delay (n : BitVec 13) : decode (encode (.delay n)) = .ok (.delay n) := by
  simp only [encode, decode, decodeTwoBytes, delayHigh_eq_append, BitVec.extractLsb'_append_eq_left,
    BitVec.extractLsb'_append_eq_right, append_extractLsb'_delay, if_true]

/-- A request of one byte that decodes is the code of what it decodes to (R51, R56, R59). -/
theorem encode_of_decodeOneByte {p : Port} {b : Byte} {i : Instr} (h : decodeOneByte p b = .ok i) :
    encode i = .request ⟨p, [b]⟩ ∧ i.wellFormed = true := by
  cases p with
  | transmitter | framer => cases h; exact ⟨rfl, rfl⟩
  | nibbleSend =>
    simp only [decodeOneByte] at h
    split at h
    · next hx => cases h; exact ⟨rfl, hx⟩
    · cases h
  | pinBinding | bootSequencer =>
    simp only [decodeOneByte] at h
    split at h
    · next hb => cases h; exact ⟨by rw [hb]; rfl, rfl⟩
    · cases h
  | frameOfClass =>
    rw [decodeOneByte, ← frameByteOf_extractLsb' b, decodeFrameClass_frameByteOf] at h
    rw [← frameByteOf_extractLsb' b]
    split at h
    · next hlow => cases h; exact ⟨by rw [hlow]; rfl, rfl⟩
    split at h
    · next hlow => cases h; exact ⟨by rw [hlow]; rfl, rfl⟩
    split at h
    · next hlow => cases h; exact ⟨by rw [hlow]; rfl, rfl⟩
    split at h
    · next hlow => cases h; exact ⟨by rw [hlow]; rfl, rfl⟩
    · cases h
  | byteFramer | delayUnit => cases h

/-- A delay whose high byte has bits 7:5 zero is the code of the delay it decodes to (R56, R59). -/
theorem encode_delay_of_high_zero {lo hi : Byte} (h : hi.extractLsb' 5 3 = 0#3) :
    encode (.delay (hi.extractLsb' 0 5 ++ lo)) = .request ⟨.delayUnit, [lo, hi]⟩ := by
  have hhi : (0#3 ++ hi.extractLsb' 0 5 : Byte) = hi := by
    rw [← h]
    exact BitVec.extractLsb'_append_extractLsb' (w := 3)
  simp only [encode, BitVec.extractLsb'_append_eq_left, BitVec.extractLsb'_append_eq_right, delayHigh_eq_append, hhi]

/-- A request of two bytes that decodes is the code of what it decodes to (R56, R59). -/
theorem encode_of_decodeTwoBytes {p : Port} {lo hi : Byte} {i : Instr} (h : decodeTwoBytes p lo hi = .ok i) :
    encode i = .request ⟨p, [lo, hi]⟩ ∧ i.wellFormed = true := by
  cases p with
  | byteFramer =>
    simp only [decodeTwoBytes] at h
    split at h
    · next hm => cases h; exact ⟨rfl, hm⟩
    · cases h
  | delayUnit =>
    simp only [decodeTwoBytes] at h
    split at h
    · next hz => cases h; exact ⟨encode_delay_of_high_zero hz, rfl⟩
    · cases h
  | transmitter | framer | nibbleSend | pinBinding | bootSequencer | frameOfClass => cases h

/-- A value of STEP that decodes is the code of its step: the sixteen values, one by one (R57). -/
theorem encode_of_decodeStep :
    ∀ n : BitVec 4, ∀ i ∈ (decodeStep n).instr?, encode i = .step n ∧ i.wellFormed = true := by
  decide

end Sys2Proof
end

section
open Sys2Proof Sys2Proof.Machine

/-- Settles O2: each instruction's code reaches the branch of the decoder that gives it back. -/
theorem encodedInstructionsDecodeBack : Obligations.EncodedInstructionsDecodeBack := by
  intro i h
  cases i with
  | frmCmdE1 p | frmCmdE0 p | frmChrE1 p | frmChrE0 p => exact decodeFrameClass_frameByteOf p _
  | nib x => exact if_pos h
  | byte m v => exact if_pos h
  | delay n => exact decode_encode_delay n
  | xfer b | frame b => rfl
  | acq | boot | s1 | s2 | s3 | s4 | s5 | s6 | s7 | s8 | s9 | s10 | s11 => rfl

/-- Settles O3: by the shape of the code, STEP or a request of one or of two bytes; no other length decodes. -/
theorem decodedCodesEncodeBack : Obligations.DecodedCodesEncodeBack := by
  intro c i h
  match c with
  | .step n =>
    have hn : decodeStep n = .ok i := h
    exact encode_of_decodeStep n i (by rw [hn]; rfl)
  | .request ⟨p, [b]⟩ => exact encode_of_decodeOneByte h
  | .request ⟨p, [lo, hi]⟩ => exact encode_of_decodeTwoBytes h
  | .request ⟨p, []⟩ => cases h
  | .request ⟨p, _ :: _ :: _ :: _⟩ => cases h

/-- Settles O1: the twelve words, each run through the decoder. -/
theorem decoderReadsWordsOfTheSpec : Obligations.DecoderReadsWordsOfTheSpec := by
  unfold Obligations.DecoderReadsWordsOfTheSpec
  decide

end

section
/-! What one step of the machine is, position by position, and what it does to STEP, the registers, the lines and the
trace: the statements about `step` drawn from it. -/

namespace Sys2Proof.Machine

variable {s t : State}

theorem busy_eq_false_iff : s.busy = false ↔ s.stepReg = 0#4 := by simp [State.busy]

theorem busy_eq_true_iff : s.busy = true ↔ s.stepReg ≠ 0#4 := by simp [State.busy]

/-- Idle and asked nothing, a step changes nothing (R57, R161). -/
theorem step_idle (h : s.stepReg = 0#4) (hr : s.requests = []) : step s = .next s := by
  simp [step, fetch, busy_eq_false_iff.2 h, hr]

/-- Idle, a step runs the oldest request, or refuses it when it does not decode (R56). -/
theorem step_request {r : Request} {rest : List Request} (h : s.stepReg = 0#4) (hr : s.requests = r :: rest) :
    (∀ i, decode (.request r) = .ok i → step s = exec i { s with requests := rest }) ∧
    (∀ e, decode (.request r) = .reject e → step s = .refused (.undecodable e)) := by
  constructor <;> intro _ hd <;> simp [step, fetch, busy_eq_false_iff.2 h, hr, hd, retire]

/-- Busy, a step runs what STEP names and then advances STEP (R16, R57). -/
theorem step_sequencer {i : Instr} (h : s.stepReg ≠ 0#4) (hd : decode (.step s.stepReg) = .ok i) :
    step s = andThen (exec i s) fun t => .next t.advance := by
  simp [step, fetch, busy_eq_true_iff.2 h, hd, retire]

/-- Busy with a value of STEP that names no step, a step is refused (R57, R59). -/
theorem step_sequencer_reject {e : DecodeError} (h : s.stepReg ≠ 0#4) (hd : decode (.step s.stepReg) = .reject e) :
    step s = .refused (.undecodable e) := by
  simp [step, fetch, busy_eq_true_iff.2 h, hd]

/-- No value of STEP is the code of BOOT: it is asked by a request (R56, R57). -/
theorem decode_step_ne_boot (n : BitVec 4) : decode (.step n) ≠ .ok .boot := by
  intro h
  have hcode : encode .boot = .step n := (encode_of_decodeStep n .boot (by rw [← decode, h]; rfl)).1
  cases hcode

/-- STEP after a step: one further while the sequencer runs, 0 after step 11, and 0 after a step from 0 (R16). -/
theorem step_stepReg (h : step s = .next t) :
    t.stepReg = if s.stepReg = 0#4 then 0#4 else if s.stepReg = 11#4 then 0#4 else s.stepReg + 1#4 := by
  obtain ⟨hb, -, rfl⟩ | ⟨hb, i, u, hd, hu, rfl⟩ | ⟨hb, r, rest, i, -, -, ht⟩ := step_cases h
  · simp [busy_eq_false_iff.1 hb]
  · have hi : i ≠ .boot := fun hi => decode_step_ne_boot s.stepReg (hi ▸ hd)
    have hu : u.stepReg = s.stepReg := by rw [exec_stepReg i hu, if_neg hi]
    rw [State.advance_stepReg, hu, if_neg (busy_eq_true_iff.1 hb)]
  · have hs : s.stepReg = 0#4 := busy_eq_false_iff.1 hb
    rw [exec_stepReg i ht, if_pos hs, hs, ite_self]

/-- From a position of at most 11 the next one is at most 11 too: the positions, one by one (R16). -/
theorem next_position_le {n : BitVec 4} (h : n.toNat ≤ 11) :
    (if n = 0#4 then 0#4 else if n = 11#4 then 0#4 else n + 1#4).toNat ≤ 11 := by
  revert n
  decide

/-- The events of a move are those its traces differ by. -/
theorem Moves.lines_of_trace {es : List Event} (h : Moves s t) (ht : t.trace = s.trace ++ es) :
    t.lines = s.lines.replay es := by
  obtain ⟨es', -, hlines, htrace⟩ := h.events
  rw [hlines, List.append_cancel_left (htrace.symm.trans ht)]

/-- Lines that follow the trace still do after a move. -/
theorem Moves.linesFollowTrace (h : Moves s t) (hs : s.LinesFollowTrace) : t.LinesFollowTrace := by
  obtain ⟨es, -, hlines, htrace⟩ := h.events
  calc t.lines
    _ = (Lines.reset.replay s.trace).replay es := by rw [hlines, hs]
    _ = Lines.reset.replay t.trace := by rw [← Lines.replay_append, htrace]

/-- The level of a line after events, read off the events as R130 does. -/
theorem Lines.latch_replay (l : Line) (es : List Event) (ls : Lines) :
    (ls.replay es).latch l = levelAfter l (ls.latch l) es := by
  induction es generalizing ls with
  | nil => rfl
  | cons e es ih =>
    rw [Lines.replay_cons, ih]
    cases e with
    | w k v => cases k <;> cases l <;> rfl
    | acqOut k pin v => cases k <;> cases l <;> rfl
    | acqIn pin pull | wait n => cases l <;> rfl

/-- A field of the lines that each event leaves as it is or sets to `b` is, after the events, as it was or `b`. -/
theorem Lines.replay_keeps_or_sets {f : Lines → Binding} {b : Binding} {es : List Event}
    (h : ∀ e ∈ es, ∀ ls : Lines, f (ls.apply e) = f ls ∨ f (ls.apply e) = b) (ls : Lines) :
    f (ls.replay es) = f ls ∨ f (ls.replay es) = b := by
  induction es generalizing ls with
  | nil => exact .inl rfl
  | cons e es ih =>
    rcases ih (fun d hd => h d (List.mem_cons_of_mem e hd)) (ls.apply e) with hrest | hrest
    · rw [Lines.replay_cons, hrest]
      exact h e List.mem_cons_self ls
    · exact .inr hrest

/-- The physical line that output `l` belongs to (R6). -/
def ownPin (p : Params) : Line → PinId
  | .strobe => p.pinStrobe
  | .clock => p.pinClock
  | .data => p.pinData

/-- An acquisition that fits the parameters names the output's own physical line (R100). -/
theorem Event.Fits.pin_eq {p : Params} {l : Line} {pin : PinId} {v : Level} (h : (Event.acqOut l pin v).Fits p) :
    pin = ownPin p l := by
  cases l <;> exact h.1

/-- Binding one output changes no other binding (R12). -/
theorem Lines.pin_bindOut (ls : Lines) (k l : Line) (pin : PinId) :
    (ls.bindOut k pin).pin l = if k = l then .output pin else ls.pin l := by
  cases k <;> cases l <;> rfl

/-- Events that fit the parameters leave each output bound as it was, or to its own physical line (R12, R100). -/
theorem Lines.pin_replay {p : Params} {es : List Event} (l : Line) (h : ∀ e ∈ es, e.Fits p) (ls : Lines) :
    (ls.replay es).pin l = ls.pin l ∨ (ls.replay es).pin l = .output (ownPin p l) := by
  refine Lines.replay_keeps_or_sets (f := fun ls => ls.pin l) (fun e he ls => ?_) ls
  cases e with
  | w k v => exact .inl (ls.pin_setLevel k l v)
  | acqOut k pin v =>
    rw [Lines.apply, Lines.pin_bindOut, Lines.pin_setLevel]
    by_cases hk : k = l
    · rw [if_pos hk, (h _ he).pin_eq, hk]; exact .inr rfl
    · rw [if_neg hk]; exact .inl rfl
  | acqIn pin pull => cases l <;> exact .inl rfl
  | wait n => exact .inl rfl

/-- The same of the unused input (R11, R100). -/
theorem Lines.unusedPin_replay {p : Params} {es : List Event} (h : ∀ e ∈ es, e.Fits p) (ls : Lines) :
    (ls.replay es).unusedPin = ls.unusedPin ∨ (ls.replay es).unusedPin = .input p.pinUnused p.pullUnused := by
  refine Lines.replay_keeps_or_sets (f := Lines.unusedPin) (fun e he ls => ?_) ls
  cases e with
  | w k v => cases k <;> exact .inl rfl
  | acqOut k pin v => cases k <;> exact .inl rfl
  | acqIn pin pull => obtain ⟨rfl, rfl⟩ := h _ he; exact .inr rfl
  | wait n => exact .inl rfl

/-- A binding only ever to `b`, left as it is or set to `b`, is only ever to `b` and never released. -/
theorem Binding.OnlyTo.kept {x y b : Binding} (hx : x.OnlyTo b) (h : y = x ∨ y = b) :
    y.OnlyTo b ∧ (x ≠ .unbound → y = x) := by
  rcases h with rfl | rfl
  · exact ⟨hx, fun _ => rfl⟩
  · exact ⟨.inr rfl, fun hne => (hx.resolve_left hne).symm⟩

end Sys2Proof.Machine
end

section
open Sys2Proof Sys2Proof.Machine

/-- Settles O44: the working registers and IDX by the step's move, STEP by where it goes. -/
theorem stepKeepsRegistersLegal : Obligations.StepKeepsRegistersLegal := by
  rintro s t ⟨hmode, hstep, hidx, hmd, hbc, hdly⟩ h
  obtain ⟨rest, -, hm⟩ := step_moves h
  refine ⟨hm.sessionMode.trans hmode, ?step, hm.idx hidx, hm.md hmd, hm.bc hbc, hm.dly hdly⟩
  case step => rw [step_stepReg h]; exact next_position_le hstep

/-- Settles O45: a step is a move, and moves replay on the lines what they add to the trace. -/
theorem stepKeepsLinesFollowingTheTrace : Obligations.StepKeepsLinesFollowingTheTrace := by
  intro s t hs h
  obtain ⟨rest, -, hm⟩ := step_moves h
  exact hm.linesFollowTrace hs

/-- Settles O47: the events of a step fit the parameters, so each binding stays or becomes the line's own. -/
theorem boundLinesAreNeverReleased : Obligations.BoundLinesAreNeverReleased := by
  rintro s t ⟨hstrobe, hclock, hdata, hunused⟩ h
  obtain ⟨rest, -, hm⟩ := step_moves h
  obtain ⟨es, hfit, hlines, -⟩ := hm.events
  obtain ⟨os, ks⟩ := hstrobe.kept (Lines.pin_replay .strobe hfit s.lines)
  obtain ⟨oc, kc⟩ := hclock.kept (Lines.pin_replay .clock hfit s.lines)
  obtain ⟨od, kd⟩ := hdata.kept (Lines.pin_replay .data hfit s.lines)
  obtain ⟨ou, ku⟩ := hunused.kept (Lines.unusedPin_replay hfit s.lines)
  rw [State.LinesOwned, hm.params, hlines]
  exact ⟨⟨os, oc, od, ou⟩, ks, kc, kd, ku⟩

/-- Settles O9: where the three kinds of step leave STEP. -/
theorem positionOnlyAdvances : Obligations.PositionOnlyAdvances := fun _ _ => step_stepReg

/-- Settles O46: reset leaves every latch unacquired, and the trace does the rest. -/
theorem latchIsTheLastLevelInTheTrace : Obligations.LatchIsTheLastLevelInTheTrace := by
  intro s l hs
  rw [hs, Lines.latch_replay]
  cases l <;> rfl

/-- Settles O49: a step is a move, which adds events at the end of the trace. -/
theorem traceOnlyGrows : Obligations.TraceOnlyGrows := by
  intro s t h
  obtain ⟨rest, -, hm⟩ := step_moves h
  obtain ⟨es, -, -, htrace⟩ := hm.events
  exact ⟨es, htrace.symm⟩

/-- Settles O5: the equation of an idle step with a request. -/
theorem stepRunsTheOldestRequest : Obligations.StepRunsTheOldestRequest := fun _ _ _ => step_request

/-- Settles O6: by what the step that STEP names answers; it leaves STEP alone, and `advance` moves it. -/
theorem stepRunsTheSequencerStep : Obligations.StepRunsTheSequencerStep := by
  intro s i h hd
  rw [step_sequencer h hd]
  refine ⟨fun t ht => ?next, fun r hr => ?refused⟩
  case next =>
    have hi : i ≠ .boot := fun hi => decode_step_ne_boot s.stepReg (hi ▸ hd)
    have hstep : t.stepReg = s.stepReg := by rw [exec_stepReg i ht, if_neg hi]
    rw [ht, andThen, State.advance, State.setStep, hstep]
  case refused => rw [hr, andThen]

/-- Settles O7: the equation of an idle step with none. -/
theorem idleMachineStaysAsItIs : Obligations.IdleMachineStaysAsItIs := fun _ => step_idle

/-- Settles O8: a value of 12 or more is not 0 and names no step. -/
theorem unreachablePositionIsRefused : Obligations.UnreachablePositionIsRefused := by
  intro s h
  have hne : s.stepReg ≠ 0#4 := fun h0 => by simp [h0] at h
  exact step_sequencer_reject hne (decodeStep_of_twelve_le h)

/-- Settles O42: the fields of the reset state, one by one. -/
theorem resetLeavesTheLinesUnacquired : Obligations.ResetLeavesTheLinesUnacquired :=
  ⟨rfl, rfl, rfl, rfl, rfl, rfl, rfl, State.reset_trace⟩

/-- Settles O43: registers 0, no event and no binding yet, no cell in VERSION. -/
theorem resetMeetsTheInvariant : Obligations.ResetMeetsTheInvariant := by
  have registers : State.reset.RegistersLegal := by decide
  exact ⟨registers, rfl, ⟨.inl rfl, .inl rfl, .inl rfl, .inl rfl⟩, rfl⟩

end

section
/-! What each operation alone leaves behind: the statements about XFER, the frame classes, DELAY, ACQ, the single-nibble
steps, the working registers, the refusals of S11 and BOOT, and the bindings. -/

namespace Sys2Proof.Machine

variable (s : State)

/-- XFER leaves CLOCK low and DATA at bit 0 of its byte (R70). -/
theorem State.xfer_eq_rest (b : Byte) : s.xfer b = { s with
    lines := { s.lines with clock := .level false, data := .level (b.getLsbD 0) }, sr := b, bc := 0#4,
    log := (xferEvents b).reverse ++ s.log } := by
  rw [State.xfer_eq, State.after, Lines.replay_xfer]

@[simp] theorem State.xfer_trace (b : Byte) : (s.xfer b).trace = s.trace ++ xferEvents b := by
  simp [State.xfer_eq_rest, State.trace]

@[simp] theorem State.frame_trace (b : Byte) : (s.frame b).trace = s.trace ++ frameEvents b := by
  simp [State.frame_eq_rest, State.trace]

@[simp] theorem State.nib_trace (x : Byte) : (s.nib x).trace = s.trace ++ nibEvents x := by
  simp [State.nib_eq, State.trace]

@[simp] theorem State.acquire_trace : s.acquire.trace = s.trace ++ acqEvents s.params :=
  s.trace_after (acqEvents s.params)

theorem exec_xfer (b : Byte) : exec (.xfer b) s = .next (s.xfer b) := rfl

/-- Bit 0 of a frame byte is bit 0 of its low nibble (R50). -/
theorem frameByteOf_bit0 (p low : Nibble) : (frameByteOf p low).getLsbD 0 = low.getLsbD 0 := by
  simp only [frameByteOf, BitVec.getLsbD_append, Nat.zero_lt_succ, if_true]

/-- The frame of a class byte whose low nibble has bit 0 clear, with DATA left 0 (R51, R80). -/
theorem State.frame_class_eq_rest (p low : Nibble) (h : low.getLsbD 0 = false) :
    (s.frame (frameByteOf p low)).trace = s.trace ++ frameEvents (p ++ low) ∧
    s.frame (frameByteOf p low) = { s with
      lines := s.lines.rest false, fb := p ++ low, sr := p ++ low, bc := 0#4,
      log := (s.frame (frameByteOf p low)).log } := by
  refine ⟨s.frame_trace (frameByteOf p low), ?_⟩
  rw [State.frame_eq_rest, frameByteOf_bit0, h]
  rfl

/-- In command mode steps S2 to S6 add nothing to their constants (R14). -/
theorem State.sessionByte_of_command (h : s.sessionMode = 0#2) : s.sessionByte = 0#8 := by
  rw [State.sessionByte, h]
  rfl

/-- A nibble send of an admitted value followed by a wait (R81, R92, R111, R112). -/
theorem State.nib_wait_eq_rest {x : Byte} (h : nibAdmitted x = true) (n : BitVec 13) :
    ((s.nib x).wait n).trace = s.trace ++ (nibEvents x ++ [.wait n.toNat]) ∧
    (s.nib x).wait n = { s with
      lines := s.lines.rest false, ph := 1#1, fb := x, sr := x, bc := 0#4, dly := 0#13,
      log := ((s.nib x).wait n).log } := by
  refine ⟨by rw [State.wait_trace, State.nib_trace, List.append_assoc], ?_⟩
  rw [State.nib_eq_rest s h]
  rfl

/-- A nibble send of an admitted value (R81, R113, R114). -/
theorem State.nib_sends {x : Byte} (h : nibAdmitted x = true) :
    (s.nib x).trace = s.trace ++ nibEvents x ∧
    s.nib x = { s with
      lines := s.lines.rest false, ph := 1#1, fb := x, sr := x, bc := 0#4, log := (s.nib x).log } := by
  refine ⟨s.nib_trace x, ?_⟩
  rw [State.nib_eq_rest s h]

/-- The working registers after BYTE of an admitted mode (R18, R90). -/
theorem State.byte_working {m : Byte} (v : Byte) (h : modeAdmitted m = true) :
    (s.byte m v).md = m.setWidth 2 ∧ (s.byte m v).val = v ∧ (s.byte m v).ns = 1#1 ∧ (s.byte m v).ph = 1#1 ∧
    (s.byte m v).fb = loNibble m v ∧ (s.byte m v).sr = loNibble m v ∧ (s.byte m v).bc = 0#4 ∧
    (s.byte m v).dly = 0#13 := by
  rw [State.byte_eq_rest s v h]
  exact ⟨rfl, rfl, rfl, rfl, rfl, rfl, rfl, rfl⟩

/-- The last pass of S7's loop is BYTE of 0x01 (R115). -/
theorem State.sendAll_cfg_eq_byte : ∃ u n, s.sendAll modeCmd cfg = (State.byte u modeCmd 0x01#8).setIdx n :=
  ⟨_, _, rfl⟩

/-- BOOT invoked while the sequencer runs is refused (R101). -/
theorem execBoot_busy (h : s.stepReg ≠ 0#4) : execBoot s = .refused .bootWhileBusy := by
  rw [execBoot, if_pos (busy_eq_true_iff.2 h)]

/-- S11 is refused under the index that follows the characters `cs` when that one has no byte (U9). -/
theorem execS11_unreadable (cs : List Byte) (hlen : cs.length < 20)
    (hread : ∀ i (h : i < cs.length), cellRead s.version i = some cs[i])
    (hne : ∀ i (h : i < cs.length), cs[i] ≠ 0x00#8)
    (hend : cellRead s.version cs.length = none) : execS11 s = .refused (.storeUnreadable .version cs.length) := by
  obtain ⟨fuel, hfuel⟩ := Nat.exists_eq_add_of_lt hlen
  have hidx : ((s.setIdx 0#5).sendAll modeChr cs).idx.toNat = cs.length := by
    rw [(State.sendAll_control modeChr cs _).1, State.setIdx_idx, BitVec.zero_add, BitVec.toNat_ofNat]
    exact Nat.mod_eq_of_lt (by omega)
  calc execS11 s
    _ = sendRun .version modeChr 20 true (fuel + 1 + cs.length) (s.setIdx 0#5) := by
      rw [execS11, lineLen]; congr 1; omega
    _ = sendRun .version modeChr 20 true (fuel + 1) ((s.setIdx 0#5).sendAll modeChr cs) :=
      sendRun_sends _ _ _ le_rfl _ cs _ _ (by simpa using hlen.le) (by simpa [State.memRead] using hread) fun _ => hne
    _ = .refused (.storeUnreadable .version cs.length) := by
      rw [sendRun_at_unreadable _ _ _ _ _ _ (by rw [hidx]; exact hlen)
        (by rw [hidx, State.memRead_sendAll]; exact hend), hidx]

/-! ### Bindings -/

/-- Every binding is the same in `a` and `b`. -/
abbrev Lines.SamePins (a b : Lines) : Prop :=
  b.strobePin = a.strobePin ∧ b.clockPin = a.clockPin ∧ b.dataPin = a.dataPin ∧ b.unusedPin = a.unusedPin

theorem Lines.SamePins.refl (ls : Lines) : ls.SamePins ls := ⟨rfl, rfl, rfl, rfl⟩

theorem Lines.SamePins.trans {a b c : Lines} (h : a.SamePins b) (k : b.SamePins c) : a.SamePins c := by
  obtain ⟨h1, h2, h3, h4⟩ := h
  obtain ⟨k1, k2, k3, k4⟩ := k
  exact ⟨k1.trans h1, k2.trans h2, k3.trans h3, k4.trans h4⟩

theorem Lines.samePins_rest (ls : Lines) (d : Level) : ls.SamePins (ls.rest d) := ⟨rfl, rfl, rfl, rfl⟩

theorem State.xfer_samePins (b : Byte) : s.lines.SamePins (s.xfer b).lines := by
  rw [State.xfer_eq_rest]
  exact ⟨rfl, rfl, rfl, rfl⟩

theorem State.frame_samePins (b : Byte) : s.lines.SamePins (s.frame b).lines := by
  rw [State.frame_eq_rest]
  exact s.lines.samePins_rest _

theorem State.nib_samePins (x : Byte) : s.lines.SamePins (s.nib x).lines := by
  rw [State.nib_eq, State.after, Lines.replay_nib]
  exact s.lines.samePins_rest _

/-- BYTE is two nibble sends and a wait, which drives no line (R90). -/
theorem State.byte_samePins (m v : Byte) : s.lines.SamePins (s.byte m v).lines := by
  simp only [State.byte, State.nib_eq, State.wait_lines, State.after_lines, Lines.replay_nib]
  exact (s.lines.samePins_rest _).trans (Lines.samePins_rest _ _)

variable {s} {t : State}

theorem sendRun_samePins {sp : Space} {m : Byte} {bound : Nat} {stop : Bool} {fuel : Nat}
    (h : sendRun sp m bound stop fuel s = .next t) : s.lines.SamePins t.lines := by
  induction fuel generalizing s with
  | zero => cases h; exact .refl _
  | succ n ih =>
    rw [sendRun] at h
    split at h
    · split at h
      · cases h
      · next c _ =>
        split at h
        · cases h; exact .refl _
        · have hrest := ih h
          rw [State.setIdx_lines] at hrest
          exact (s.byte_samePins m c).trans hrest
    · cases h; exact .refl _

theorem execS7_samePins (h : execS7 s = .next t) : s.lines.SamePins t.lines := by
  obtain ⟨u, hu, ht⟩ := andThen_next h
  injection ht with ht
  subst ht
  rw [State.wait_lines]
  have hrun := sendRun_samePins hu
  rwa [State.setIdx_lines] at hrun

theorem execS9_samePins (h : execS9 s = .next t) : s.lines.SamePins t.lines := by
  have hrun := sendRun_samePins (sp := .banner) (m := modeChr) (stop := false) h
  rwa [State.setIdx_lines] at hrun

theorem execS11_samePins (h : execS11 s = .next t) : s.lines.SamePins t.lines := by
  have hrun := sendRun_samePins (sp := .version) (m := modeChr) (stop := true) h
  rwa [State.setIdx_lines] at hrun

/-- Whatever does not acquire binds nothing (R12). -/
theorem exec_samePins {i : Instr} (hacq : i ≠ .acq) (hs1 : i ≠ .s1) (hboot : i ≠ .boot) (h : exec i s = .next t) :
    s.lines.SamePins t.lines := by
  cases i with
  | acq => exact absurd rfl hacq
  | s1 => exact absurd rfl hs1
  | boot => exact absurd rfl hboot
  | frmCmdE1 p | frmCmdE0 p | frmChrE1 p | frmChrE0 p => injection h with h; subst h; exact s.frame_samePins _
  | xfer b => injection h with h; subst h; exact s.xfer_samePins b
  | frame b => injection h with h; subst h; exact s.frame_samePins b
  | nib x =>
    simp only [exec, execNib] at h
    split at h
    · injection h with h; subst h; exact s.nib_samePins x
    · cases h
  | byte m v =>
    simp only [exec, execByte] at h
    split at h
    · injection h with h; subst h; exact s.byte_samePins m v
    · cases h
  | delay n => injection h with h; subst h; exact .refl _
  | s2 => injection h with h; subst h; exact s.frame_samePins _
  | s3 | s4 => injection h with h; subst h; rw [State.wait_lines]; exact s.nib_samePins _
  | s5 | s6 => injection h with h; subst h; exact s.nib_samePins _
  | s8 | s10 => injection h with h; subst h; exact s.byte_samePins _ _
  | s7 => exact execS7_samePins h
  | s9 => exact execS9_samePins h
  | s11 => exact execS11_samePins h

end Sys2Proof.Machine
end

section
open Sys2Proof Sys2Proof.Machine

/-- Settles O10: XFER's equation, its event list written out. -/
theorem xferShiftsTheByteOut : Obligations.XferShiftsTheByteOut := by
  intro b s
  refine ⟨s.xfer b, exec_xfer s b, s.xfer_trace b, ?frame⟩
  case frame => rw [State.xfer_eq_rest]

/-- Settles O13: each class row is FRAME of its byte, whose bit 0 is clear. -/
theorem frameClassesSendTheirFrameByte : Obligations.FrameClassesSendTheirFrameByte := by
  intro p s
  exact ⟨⟨_, rfl, s.frame_class_eq_rest p 0x8#4 rfl⟩, ⟨_, rfl, s.frame_class_eq_rest p 0x0#4 rfl⟩,
    ⟨_, rfl, s.frame_class_eq_rest p 0xA#4 rfl⟩, ⟨_, rfl, s.frame_class_eq_rest p 0x2#4 rfl⟩⟩

/-- Settles O16: the registers after FRAME, NIB and BYTE by their equations; the steps end in BYTE. -/
theorem workingRegistersKeepTheLastOperands : Obligations.WorkingRegistersKeepTheLastOperands := by
  intro s
  refine ⟨fun b => ?frame, fun x hx => ?nib, fun m v hm => ?byte, ?s7, ⟨_, rfl, s.byte_working cursorLine1 rfl⟩,
    ⟨_, rfl, s.byte_working cursorLine2 rfl⟩⟩
  case frame =>
    rw [exec_frame, State.frame_eq_rest]
    exact ⟨_, rfl, rfl, rfl⟩
  case nib =>
    have h : nibAdmitted x = true := (nibAdmitted_iff x).2 hx
    rw [exec_nib_of_admitted s h, State.nib_eq_rest s h]
    exact ⟨_, rfl, rfl, rfl, rfl⟩
  case byte =>
    have h : modeAdmitted m = true := (modeAdmitted_iff m).2 hm
    obtain ⟨-, -, -, hph, hfb, hsr, hbc, hdly⟩ := s.byte_working v h
    exact ⟨_, exec_byte_of_admitted s v h, hph, hfb, hsr, hbc, hdly⟩
  case s7 =>
    obtain ⟨u, n, hlast⟩ := (s.setIdx 0#5).sendAll_cfg_eq_byte
    obtain ⟨hmd, hval, hns, hph, hfb, hsr, hbc, -⟩ := u.byte_working (m := modeCmd) 0x01#8 rfl
    have hmd : (State.byte u modeCmd 0x01#8).md = 0#2 := hmd
    refine ⟨_, execS7_eq s, ?_⟩
    simp only [hlast, State.wait_md, State.wait_val, State.wait_ns, State.wait_ph, State.wait_fb, State.wait_sr,
      State.wait_bc, State.wait_dly, State.setIdx_md, State.setIdx_val, State.setIdx_ns, State.setIdx_ph,
      State.setIdx_fb, State.setIdx_sr, State.setIdx_bc, hmd, hval, hns, hph, hfb, hsr, hbc]
    decide

/-- Settles O18: DELAY is the delay unit's wait, whose event is its trace. -/
theorem delayEmitsOneWait : Obligations.DelayEmitsOneWait := fun n s => ⟨_, rfl, s.wait_trace n, rfl⟩

/-- Settles O19: ACQ is its four events. -/
theorem acqDrivesInitialLevels : Obligations.AcqDrivesInitialLevels :=
  fun s => ⟨_, rfl, s.trace_after (acqEvents s.params), rfl⟩

/-- Settles O20: S1 is ACQ. -/
theorem firstStepIsAcquisition : Obligations.FirstStepIsAcquisition :=
  fun s => ⟨rfl, _, rfl, s.trace_after (acqEvents s.params), rfl⟩

/-- Settles O22: in command mode each step is a nibble send of its constant, S3 and S4 with a wait after it. -/
theorem singleNibbleStepsSendTheirFrames : Obligations.SingleNibbleStepsSendTheirFrames := by
  intro s hs
  have h0 : s.sessionByte = 0#8 := s.sessionByte_of_command hs
  have hprobe : probeNibble ||| s.sessionByte = 0x30#8 := by rw [h0]; rfl
  have hfour : fourBitNibble ||| s.sessionByte = 0x20#8 := by rw [h0]; rfl
  simp only [exec, execS3, execS4, execS5, execS6, hprobe, hfour]
  exact ⟨⟨_, rfl, s.nib_wait_eq_rest rfl tInit1⟩, ⟨_, rfl, s.nib_wait_eq_rest rfl tInit2⟩,
    ⟨_, rfl, s.nib_sends rfl⟩, ⟨_, rfl, s.nib_sends rfl⟩⟩

/-- Settles O26: the twenty codes, each looked up. -/
theorem bannerHoldsItsCharacterCodes : Obligations.BannerHoldsItsCharacterCodes := by
  unfold Obligations.BannerHoldsItsCharacterCodes
  decide

/-- Settles O28: the characters below the index form a list, which the loop sends before it reaches the index. -/
theorem unreadableVersionIsRefused : Obligations.UnreadableVersionIsRefused := by
  intro s k hk hnone hchars
  choose c hread hne using hchars
  have hlen : (List.ofFn fun i : Fin k => c i i.isLt).length = k := List.length_ofFn
  have h := execS11_unreadable s (List.ofFn fun i : Fin k => c i i.isLt) (by rw [hlen]; exact hk)
    (fun i hi => by rw [List.getElem_ofFn]; exact hread i (hlen ▸ hi))
    (fun i hi => by rw [List.getElem_ofFn]; exact hne i (hlen ▸ hi)) (by rw [hlen]; exact hnone)
  rwa [hlen] at h

/-- Settles O31: BOOT's first check. -/
theorem bootWhileBusyIsRefused : Obligations.BootWhileBusyIsRefused := execBoot_busy

/-- Settles O51: nothing else acquires. -/
theorem onlyAcquisitionBinds : Obligations.OnlyAcquisitionBinds :=
  fun _ _ _ hacq hs1 hboot h => exec_samePins hacq hs1 hboot h

end

section
/-! What an observer on the lines sees of the sending operations: the receiver after each, the frames, nibble writes and
bytes they are read as, and XFER's bits on CLOCK and DATA (R71, R130 to R136). -/

namespace Sys2Proof.Machine

/-! ### The receiver -/

/-- A falling transition, or none, of CLOCK shifts nothing (R131). -/
@[simp] theorem Receiver.onClock_writeEdge_false (r : Receiver) (l : Latch) : r.onClock (writeEdge l false) = r := by
  cases l with
  | unacquired => rfl
  | level u => cases u <;> rfl

/-- A falling transition, or none, of STROBE presents nothing (R132). -/
@[simp] theorem Receiver.onStrobe_writeEdge_false (r : Receiver) (l : Latch) : r.onStrobe (writeEdge l false) = r := by
  cases l with
  | unacquired => rfl
  | level u => cases u <;> rfl

/-- One bit shifted into the receiver's shift stage (R131). -/
def shiftIn (x : Byte) (v : Level) : Byte := x.extractLsb' 0 7 ++ BitVec.ofBool v

/-- One bit from CLOCK low: the wire follows DATA and the bit is shifted in (R131). -/
theorem Receiver.run_bit {r : Receiver} (h : r.clock = .level false) (v : Level) :
    r.run (bitEvents v) = { r with wire := v, rsh := shiftIn r.rsh v } := by
  obtain ⟨strobe, clock, wire, rsh, rout, acq⟩ := r
  cases h
  rfl

/-- The bit shifted in is bit 0, and every other bit moves up by one (R131). -/
theorem getLsbD_shiftIn (x : Byte) (v : Level) (i : Nat) :
    (shiftIn x v).getLsbD i = if i = 0 then v else (decide (i ≤ 7) && x.getLsbD (i - 1)) := by
  rw [shiftIn, BitVec.getLsbD_append]
  cases i with
  | zero => simp
  | succ i => simp [Nat.lt_succ_iff]

/-- Eight bits shifted in, most significant first, are the byte, whatever was there (R131). -/
theorem shiftIn_bits (x b : Byte) :
    shiftIn (shiftIn (shiftIn (shiftIn (shiftIn (shiftIn (shiftIn (shiftIn x (b.getLsbD 7)) (b.getLsbD 6)) (b.getLsbD 5))
      (b.getLsbD 4)) (b.getLsbD 3)) (b.getLsbD 2)) (b.getLsbD 1)) (b.getLsbD 0) = b := by
  refine BitVec.eq_of_getLsbD_eq fun i hi => ?_
  simp only [getLsbD_shiftIn]
  interval_cases i <;> rfl

/-- XFER from CLOCK low fills the shift stage with its byte (R71, R131). -/
theorem Receiver.run_xfer {r : Receiver} (h : r.clock = .level false) (b : Byte) :
    r.run (xferEvents b) = { r with wire := b.getLsbD 0, rsh := b } := by
  simp only [xferEvents, Receiver.run_append, Receiver.run_bit, h, shiftIn_bits]

/-- A frame's two first writes take STROBE and CLOCK low and do nothing else, whatever the levels were (R80). -/
theorem Receiver.run_low (r : Receiver) :
    r.run [.w .strobe false, .w .clock false] = { r with strobe := .level false, clock := .level false } := by
  simp only [Receiver.run_cons, Receiver.run_nil, Receiver.feed, Receiver.onStrobe_writeEdge_false,
    Receiver.onClock_writeEdge_false]

/-- A frame's last write presents the shift stage (R132). -/
theorem Receiver.feed_strobe {r : Receiver} (h : r.strobe = .level false) :
    r.feed (.w .strobe true) = { r with strobe := .level true, rout := r.rsh } := by
  obtain ⟨strobe, clock, wire, rsh, rout, acq⟩ := r
  cases h
  rfl

/-- FRAME leaves any receiver at rest, presenting the byte (R132). -/
theorem Receiver.run_frame (r : Receiver) (b : Byte) :
    r.run (frameEvents b) = { r with
      strobe := .level true, clock := .level false, wire := b.getLsbD 0, rsh := b, rout := b } := by
  rw [frameEvents, Receiver.run_append, Receiver.run_append, Receiver.run_low, Receiver.run_xfer rfl,
    Receiver.run_cons, Receiver.run_nil, Receiver.feed_strobe rfl]

/-- NIB leaves any receiver presenting the enable-clear byte (R81, R132). -/
theorem Receiver.run_nib_rout (r : Receiver) (x : Byte) : (r.run (nibEvents x)).rout = x := by
  rw [nibEvents, Receiver.run_append, Receiver.run_frame]

/-- BYTE leaves any receiver presenting the low nibble with enable clear (R90, R132, R135). -/
theorem Receiver.run_byte_rout (r : Receiver) (m v : Byte) : (r.run (byteEvents m v)).rout = loNibble m v := by
  rw [byteEvents, Receiver.run_append, Receiver.run_append, Receiver.run_cons, Receiver.run_nil, Receiver.feed,
    Receiver.run_nib_rout]
  rfl

/-! ### Frames -/

theorem frames_wait (r : Receiver) (n : Nat) : frames r [.wait n] = [.wait n] := rfl

/-- XFER does not touch STROBE, so it presents nothing (R70, R133). -/
theorem frames_xfer (r : Receiver) (b : Byte) : frames r (xferEvents b) = [] := rfl

theorem Receiver.presents_write_false (r : Receiver) : r.presents (.w .strobe false) = false := by
  obtain ⟨_ | u, clock, wire, rsh, rout, acq⟩ := r
  · rfl
  · cases u <;> rfl

/-- FRAME is one frame: only its last write takes STROBE up, the shift stage then holding the byte (R133). -/
theorem frames_frame (r : Receiver) (b : Byte) : frames r (frameEvents b) = [.frame b] := by
  have hlow : frames r [.w .strobe false, .w .clock false] = [] := by
    simp only [frames, Receiver.presents_write_false]
    rfl
  rw [frameEvents, frames_append, frames_append, hlow, frames_xfer, Receiver.run_append, Receiver.run_low,
    Receiver.run_xfer rfl]
  rfl

/-- The frames of a nibble send (R82). -/
def nibFrames (x : Byte) : List FrameItem := [.frame (x ||| 0x08#8), .frame x]

/-- The frames of a byte and its wait (R91). -/
def byteFrames (m v : Byte) : List FrameItem := nibFrames (hiNibble m v) ++ nibFrames (loNibble m v) ++ [.wait 37]

theorem frames_nib (r : Receiver) (x : Byte) : frames r (nibEvents x) = nibFrames x := by
  rw [nibEvents, frames_append, frames_frame, frames_frame]
  rfl

theorem frames_byte (r : Receiver) (m v : Byte) : frames r (byteEvents m v) = byteFrames m v := by
  rw [byteEvents, frames_append, frames_append, frames_nib, frames_nib, frames_wait]
  rfl

theorem frames_text (r : Receiver) (cs : List Byte) :
    frames r (textEvents cs) = cs.flatMap (byteFrames 0x02#8) := by
  induction cs generalizing r with
  | nil => rfl
  | cons c cs ih => rw [textEvents, List.flatMap_cons, frames_append, frames_byte, List.flatMap_cons, ← ih]; rfl

/-- ACQ is read as at most one frame, of what the shift stage held: where the acquisition of STROBE is a rising edge
(R133, R163). -/
theorem frames_acq (r : Receiver) (p : Params) :
    frames r (acqEvents p) = if r.acq.headD none = some true then [.frame r.rsh] else [] := by
  obtain ⟨strobe, clock, wire, rsh, rout, acq⟩ := r
  match acq with
  | [] => rfl
  | none :: _ => rfl
  | some false :: _ => rfl
  | some true :: _ => rfl

/-! ### Nibble writes and bytes -/

theorem nibbles_wait (n : Nat) (fs : List FrameItem) : nibbles (.wait n :: fs) = .wait n :: nibbles fs := by
  simp [nibbles]

/-- A nibble send is one nibble write (R82, R134). -/
theorem nibbles_nib {x : Byte} (h : nibAdmitted x = true) (fs : List FrameItem) :
    nibbles (nibFrames x ++ fs) = .nibble (payloadOf x) (modeOf x) :: nibbles fs := by
  have hpair : isNibbleWrite (x ||| 0x08#8) x = true ∧ payloadOf (x ||| 0x08#8) = payloadOf x ∧
      modeOf (x ||| 0x08#8) = modeOf x := by
    revert x
    decide
  obtain ⟨hwrite, hpayload, hmode⟩ := hpair
  simp [nibFrames, nibbles, hwrite, hpayload, hmode]

/-- A byte is two nibble writes and its wait (R91, R134). -/
theorem nibbles_byte {m : Byte} (v : Byte) (h : modeAdmitted m = true) (fs : List FrameItem) :
    nibbles (byteFrames m v ++ fs) =
      .nibble (v.extractLsb' 4 4) (m.getLsbD 1) :: .nibble (v.extractLsb' 0 4) (m.getLsbD 1) :: .wait 37 ::
        nibbles fs := by
  have hhi : payloadOf (hiNibble m v) = v.extractLsb' 4 4 ∧ modeOf (hiNibble m v) = m.getLsbD 1 := by
    rcases (modeAdmitted_iff m).1 h with rfl | rfl <;> revert v <;> decide
  have hlo : payloadOf (loNibble m v) = v.extractLsb' 0 4 ∧ modeOf (loNibble m v) = m.getLsbD 1 := by
    rcases (modeAdmitted_iff m).1 h with rfl | rfl <;> revert v <;> decide
  rw [byteFrames, List.append_assoc, List.append_assoc, nibbles_nib (hiNibble_admitted v h),
    nibbles_nib (loNibble_admitted v h), List.singleton_append, nibbles_wait, hhi.1, hhi.2, hlo.1, hlo.2]

/-- A byte's nibble writes pair into the byte (R136). -/
theorem pairNibbles_byte {m : Byte} (v : Byte) (h : modeAdmitted m = true) (fs : List FrameItem) :
    pairNibbles (nibbles (byteFrames m v ++ fs)) = .byte v (m.getLsbD 1) :: .wait 37 :: pairNibbles (nibbles fs) := by
  rw [nibbles_byte v h, pairNibbles, if_pos ⟨rfl, rfl⟩]
  exact congrArg (fun b => ByteItem.byte b _ :: _) (frameByteOf_extractLsb' v)

theorem pairNibbles_wait (n : Nat) (ns : List NibbleItem) : pairNibbles (.wait n :: ns) = .wait n :: pairNibbles ns := by
  simp [pairNibbles]

/-- A text run is its characters (R117, R119, R136). -/
theorem pairNibbles_text (cs : List Byte) (fs : List FrameItem) :
    pairNibbles (nibbles (cs.flatMap (byteFrames 0x02#8) ++ fs)) = textSeen cs ++ pairNibbles (nibbles fs) := by
  induction cs with
  | nil => rfl
  | cons c cs ih => rw [List.flatMap_cons, List.append_assoc, pairNibbles_byte c rfl, ih]; rfl

/-! ### XFER on the wires -/

/-- How XFER's bits look on CLOCK and DATA (R71): for each level sent one rising and one falling transition of CLOCK, DATA
at that level at the rising one and still while CLOCK is high; CLOCK low at the end, and nothing acquired. -/
structure CarriesBits (acq : List AcqEdge) (ls : Lines) (es : List Event) (vs : List Level) : Prop where
  edges : transitions .clock acq ls es = (List.replicate vs.length [true, false]).flatten
  data : dataAtRisingClock acq ls es = vs.map Latch.level
  stable : dataStable acq ls es = true
  low : (ls.replay es).clock = .level false
  acqKept : es.foldl acqRest acq = acq

theorem dataAtRisingClock_append (acq : List AcqEdge) (ls : Lines) (es fs : List Event) :
    dataAtRisingClock acq ls (es ++ fs) =
      dataAtRisingClock acq ls es ++ dataAtRisingClock (es.foldl acqRest acq) (ls.replay es) fs := by
  induction es generalizing acq ls with
  | nil => rfl
  | cons e es ih =>
    simp only [List.cons_append, dataAtRisingClock, ih, List.foldl_cons, Lines.replay_cons]
    split <;> rfl

theorem dataStable_append (acq : List AcqEdge) (ls : Lines) (es fs : List Event) :
    dataStable acq ls (es ++ fs) =
      (dataStable acq ls es && dataStable (es.foldl acqRest acq) (ls.replay es) fs) := by
  induction es generalizing acq ls with
  | nil => rfl
  | cons e es ih =>
    simp only [List.cons_append, dataStable, ih, List.foldl_cons, Lines.replay_cons, Bool.and_assoc]

/-- One bit after others. -/
theorem CarriesBits.append {acq : List AcqEdge} {ls : Lines} {es fs : List Event} {us vs : List Level}
    (h : CarriesBits acq ls es us) (k : (ls.replay es).clock = .level false → CarriesBits acq (ls.replay es) fs vs) :
    CarriesBits acq ls (es ++ fs) (us ++ vs) := by
  have hk := k h.low
  refine ⟨?edges, ?data, ?stable, ?low, ?acqKept⟩
  case edges =>
    rw [transitions, waveform_append, List.filterMap_append, h.acqKept, List.length_append, List.replicate_add,
      List.flatten_append, ← h.edges, ← hk.edges]
    rfl
  case data => rw [dataAtRisingClock_append, h.acqKept, h.data, hk.data, List.map_append]
  case stable => rw [dataStable_append, h.acqKept, h.stable, hk.stable]; rfl
  case low => rw [Lines.replay_append]; exact hk.low
  case acqKept => rw [List.foldl_append, h.acqKept, hk.acqKept]

/-- One bit from CLOCK low, whatever level DATA had (R70, R71). -/
theorem CarriesBits.bit (acq : List AcqEdge) {ls : Lines} (h : ls.clock = .level false) (v : Level) :
    CarriesBits acq ls (bitEvents v) [v] := by
  obtain ⟨strobe, clock, data, _, _, _, _⟩ := ls
  cases h
  refine ⟨?edges, rfl, ?stable, rfl, rfl⟩
  all_goals
    match data, v with
    | .unacquired, _ => rfl
    | .level false, false | .level false, true | .level true, false | .level true, true => rfl

/-- XFER from CLOCK low carries bits 7 to 0 (R71). -/
theorem CarriesBits.xfer (acq : List AcqEdge) {ls : Lines} (h : ls.clock = .level false) (b : Byte) :
    CarriesBits acq ls (xferEvents b)
      [b.getLsbD 7, b.getLsbD 6, b.getLsbD 5, b.getLsbD 4, b.getLsbD 3, b.getLsbD 2, b.getLsbD 1, b.getLsbD 0] :=
  (((((((CarriesBits.bit acq h _).append (CarriesBits.bit acq · _)).append (CarriesBits.bit acq · _)).append
    (CarriesBits.bit acq · _)).append (CarriesBits.bit acq · _)).append (CarriesBits.bit acq · _)).append
    (CarriesBits.bit acq · _)).append (CarriesBits.bit acq · _)

/-- Each bit of XFER is one write to DATA and two to CLOCK, at whatever levels (R70, R71). -/
theorem xferEvents_counts (b : Byte) :
    ((xferEvents b).filter fun e => e = .w .data false ∨ e = .w .data true).length = 8 ∧
    ((xferEvents b).filter fun e => e = .w .clock false ∨ e = .w .clock true).length = 16 := by
  have hdata (v : Level) : ((bitEvents v).filter fun e => e = .w .data false ∨ e = .w .data true).length = 1 := by
    cases v <;> rfl
  have hclock (v : Level) : ((bitEvents v).filter fun e => e = .w .clock false ∨ e = .w .clock true).length = 2 := by
    cases v <;> rfl
  simp only [xferEvents, List.filter_append, List.length_append, hdata, hclock]
  decide

end Sys2Proof.Machine
end

section
open Sys2Proof Sys2Proof.Machine

/-- Settles O11: XFER's eight bits, one after another from CLOCK low. -/
theorem xferEdgesCarryTheBits : Obligations.XferEdgesCarryTheBits := by
  intro b s acq h
  obtain ⟨hedges, hdata, hstable, -, -⟩ := CarriesBits.xfer acq h b
  obtain ⟨hd, hc⟩ := xferEvents_counts b
  exact ⟨_, xferEvents b, exec_xfer s b, s.xfer_trace b, hedges, hdata, hstable, hd, hc, rfl⟩

/-- Settles O17: BYTE's events are read as four frames and a wait, which pair into its two nibble writes. -/
theorem byteIsSeenAsItsTwoNibbles : Obligations.ByteIsSeenAsItsTwoNibbles := by
  intro m v s r hm
  have h : modeAdmitted m = true := (modeAdmitted_iff m).2 hm
  refine ⟨_, byteEvents m v, exec_byte_of_admitted s v h, (s.byte_sends v h).1, frames_byte r m v, ?nibbles⟩
  case nibbles => rw [frames_byte r m v]; exact nibbles_byte v h []

/-- Settles O21: in command mode S2 is FRAME of 0x00, whose bit 0 is clear and which any receiver presents. -/
theorem syncStepSendsTheZeroFrame : Obligations.SyncStepSendsTheZeroFrame := by
  intro s hs
  have hsync : syncFrame ||| s.sessionByte = 0x00#8 := by rw [s.sessionByte_of_command hs]; rfl
  refine ⟨s.frame 0x00#8, ?completes, s.frame_trace 0x00#8, ?frame, fun r => by rw [Receiver.run_frame]⟩
  case completes => rw [exec, execS2, hsync]
  case frame => rw [State.frame_eq_rest]; rfl

/-- Settles O36: FRAME's events, read from any receiver. -/
theorem frameIsSeenAsOneFrame : Obligations.FrameIsSeenAsOneFrame :=
  fun b s r => ⟨_, frameEvents b, exec_frame s b, s.frame_trace b, frames_frame r b, by rw [Receiver.run_frame]⟩

/-- Settles O37: NIB's two frames, which pair into one nibble write. -/
theorem nibIsSeenAsOneNibbleWrite : Obligations.NibIsSeenAsOneNibbleWrite := by
  intro x s r hx
  have h : nibAdmitted x = true := (nibAdmitted_iff x).2 hx
  refine ⟨_, nibEvents x, exec_nib_of_admitted s h, s.nib_trace x, frames_nib r x, ?nibbles⟩
  case nibbles => rw [frames_nib r x]; exact nibbles_nib h []

/-- Settles O39: each of ACQ's three outputs takes the next entry of the list. -/
theorem acquisitionIsSeenAsAnyEdge : Obligations.AcquisitionIsSeenAsAnyEdge := by
  intro s x y z acq ls
  refine ⟨_, acqEvents s.params, rfl, s.acquire_trace, ?waveform⟩
  case waveform => simp [acqEvents, waveform, waveOf, edgeOf, acqRest]

end

section
/-! BOOT: what its eleven steps do, as one equation of the state it ends in, and the statements about a run of BOOT. -/

namespace Sys2Proof.Machine

variable (s : State)

/-! ### BOOT is the sequencer, step by step -/

/-- `k` steps of the machine: `core.run` with the model's own types in place of the interface's. -/
def runSteps (k : Nat) (s : State) : Result := core.run k s

@[simp] theorem runSteps_zero : runSteps 0 s = .next s := rfl

theorem core_run_succ_of_next {M : Host.Core} {k : Nat} {s t : M.State} (h : M.step s = .next t) :
    M.run (k + 1) s = M.run k t := by
  rw [Host.Core.run, h]

theorem core_run_succ_of_refused {M : Host.Core} {k : Nat} {s : M.State} {r : M.Refusal} (h : M.step s = .refused r) :
    M.run (k + 1) s = .refused r := by
  rw [Host.Core.run, h]

theorem runSteps_succ (k : Nat) : runSteps (k + 1) s = andThen (step s) (runSteps k) := by
  cases h : step s with
  | next t => exact core_run_succ_of_next (M := core) h
  | fault r => cases r
  | refused r => exact core_run_succ_of_refused (M := core) h

/-- The machine stepped from position `n`: the step of that number, then the machine from the position after it (R16,
R57). -/
theorem runSteps_setStep {i : Instr} (n : BitVec 4) (k : Nat) (h0 : n ≠ 0#4) (hd : decodeStep n = .ok i) :
    runSteps (k + 1) (s.setStep n) =
      andThen (exec i (s.setStep n)) fun t => runSteps k (t.setStep (if n = 11#4 then 0#4 else n + 1#4)) := by
  have hi : i ≠ .boot := fun hi => decode_step_ne_boot n (hi ▸ hd)
  have hstep : step (s.setStep n) = andThen (exec i (s.setStep n)) fun t => .next t.advance := step_sequencer h0 hd
  rw [runSteps_succ, hstep]
  cases ho : exec i (s.setStep n) with
  | fault r => rfl
  | refused r => rfl
  | next t =>
    have ht : t.stepReg = n := by rw [exec_stepReg i ho, if_neg hi, State.setStep_stepReg]
    simp only [andThen, State.advance, ht]

theorem andThen_congr {o : Result} {f g : State → Result} (h : ∀ t, f t = g t) : andThen o f = andThen o g := by
  rw [funext h]

/-- From position 1, eleven steps are BOOT's own sequence (R101). -/
theorem runSteps_eleven_eq_execBoot (h : s.stepReg = 0#4) : runSteps 11 (s.setStep 1#4) = execBoot s := by
  rw [execBoot, if_neg (by simp [State.busy, h])]
  refine (runSteps_setStep s 1#4 10 (by decide) rfl).trans (andThen_congr fun s => ?_)
  refine (runSteps_setStep s 2#4 9 (by decide) rfl).trans (andThen_congr fun s => ?_)
  refine (runSteps_setStep s 3#4 8 (by decide) rfl).trans (andThen_congr fun s => ?_)
  refine (runSteps_setStep s 4#4 7 (by decide) rfl).trans (andThen_congr fun s => ?_)
  refine (runSteps_setStep s 5#4 6 (by decide) rfl).trans (andThen_congr fun s => ?_)
  refine (runSteps_setStep s 6#4 5 (by decide) rfl).trans (andThen_congr fun s => ?_)
  refine (runSteps_setStep s 7#4 4 (by decide) rfl).trans (andThen_congr fun s => ?_)
  refine (runSteps_setStep s 8#4 3 (by decide) rfl).trans (andThen_congr fun s => ?_)
  refine (runSteps_setStep s 9#4 2 (by decide) rfl).trans (andThen_congr fun s => ?_)
  refine (runSteps_setStep s 10#4 1 (by decide) rfl).trans (andThen_congr fun s => ?_)
  exact runSteps_setStep s 11#4 0 (by decide) rfl

/-! ### What the steps before S11 leave -/

@[simp] theorem State.frame_sessionMode (b : Byte) : (s.frame b).sessionMode = s.sessionMode :=
  (moves_frame s b).sessionMode
@[simp] theorem State.nib_sessionMode (x : Byte) : (s.nib x).sessionMode = s.sessionMode :=
  (moves_nib s x).sessionMode
@[simp] theorem State.acquire_sessionMode : s.acquire.sessionMode = s.sessionMode := rfl

/-- Steps S3 to S8 with `b` or'ed into the nibble constants (R111 to R116). -/
def State.fixedCommands (s : State) (b : Byte) : State :=
  let s := ((s.setStep 3#4).nib (probeNibble ||| b)).wait tInit1
  let s := ((s.setStep 4#4).nib (probeNibble ||| b)).wait tInit2
  let s := (s.setStep 5#4).nib (probeNibble ||| b)
  let s := (s.setStep 6#4).nib (fourBitNibble ||| b)
  let s := (((s.setStep 7#4).setIdx 0#5).sendAll modeCmd cfg).wait tClear
  (s.setStep 8#4).byte modeCmd cursorLine1

/-- Steps S1 to S10 (R109 to R118): all of BOOT that does not read VERSION. -/
def State.beforeVersion (s : State) : State :=
  let b := s.sessionByte
  let s := (s.setStep 1#4).acquire
  let s := (s.setStep 2#4).frame (syncFrame ||| b)
  let s := s.fixedCommands b
  let s := ((s.setStep 9#4).setIdx 0#5).sendAll modeChr banner
  (s.setStep 10#4).byte modeCmd cursorLine2

/-- The state BOOT ends in, the version characters being `cs` (R101). -/
def State.booted (s : State) (cs : List Byte) : State :=
  (((s.beforeVersion.setStep 11#4).setIdx 0#5).sendAll modeChr cs).setStep 0#4

@[simp] theorem andThen_of_next (f : State → Result) : andThen (.next s) f = f s := rfl

/-- Six steps of the machine from position 3. -/
theorem runSteps_fixedCommands :
    runSteps 6 (s.setStep 3#4) = .next ((s.fixedCommands s.sessionByte).setStep 9#4) := by
  have h3 (s : State) := runSteps_setStep s (i := .s3) 3#4 5 (by decide) rfl
  have h4 (s : State) := runSteps_setStep s (i := .s4) 4#4 4 (by decide) rfl
  have h5 (s : State) := runSteps_setStep s (i := .s5) 5#4 3 (by decide) rfl
  have h6 (s : State) := runSteps_setStep s (i := .s6) 6#4 2 (by decide) rfl
  have h7 (s : State) := runSteps_setStep s (i := .s7) 7#4 1 (by decide) rfl
  have h8 (s : State) := runSteps_setStep s (i := .s8) 8#4 0 (by decide) rfl
  simp [h3, h4, h5, h6, h7, h8, exec, execS3, execS4, execS5, execS6, execS7_eq, execS8, State.fixedCommands,
    State.sessionByte]

/-- BOOT of an idle machine reads VERSION only in its last step. -/
theorem execBoot_eq (h : s.stepReg = 0#4) :
    execBoot s = andThen (execS11 (s.beforeVersion.setStep 11#4)) fun t => .next (t.setStep 0#4) := by
  rw [execBoot, if_neg (by simp [State.busy, h])]
  simp only [execS1, execS2, execS3, execS4, execS5, execS6, execS7_eq, execS8, execS9_eq, execS10, andThen_of_next,
    State.sessionByte, State.beforeVersion, State.fixedCommands, State.setStep_sessionMode, State.acquire_sessionMode,
    State.frame_sessionMode, State.nib_sessionMode, State.wait_sessionMode]

/-! ### The events of a run -/

@[simp] theorem State.byte_trace {m : Byte} (h : modeAdmitted m = true) (v : Byte) :
    (s.byte m v).trace = s.trace ++ byteEvents m v := (s.byte_sends v h).1

@[simp] theorem State.sendAll_trace {m : Byte} (h : modeAdmitted m = true) (cs : List Byte) :
    (s.sendAll m cs).trace = s.trace ++ cs.flatMap (byteEvents m) := (State.sendAll_events m h cs s).2

/-- The events of steps S3 to S8 (R106, R111 to R116). -/
def fixedCommandEvents : List Event :=
  (nibEvents 0x30#8 ++ [.wait 4500]) ++ (nibEvents 0x30#8 ++ [.wait 150]) ++ nibEvents 0x30#8 ++ nibEvents 0x20#8 ++
    configEvents ++ byteEvents 0x00#8 0x80#8

/-- The events of steps S9 and S10 (R117, R118). -/
def bannerEvents : List Event := textEvents bannerText ++ byteEvents 0x00#8 0x94#8

/-- The events of a run after its acquisitions (R102). -/
def sentEvents (cs : List Byte) : List Event :=
  frameEvents 0x00#8 ++ fixedCommandEvents ++ bannerEvents ++ textEvents cs

/-- The event list of a run: acquisition, and what is sent after it (R102). -/
theorem bootEvents_eq (p : Params) (cs : List Byte) : bootEvents p cs = acqEvents p ++ sentEvents cs := by
  simp only [bootEvents, sentEvents, fixedCommandEvents, bannerEvents, List.append_assoc]

theorem State.fixedCommands_trace : (s.fixedCommands 0#8).trace = s.trace ++ fixedCommandEvents := by
  have hcmd : modeAdmitted modeCmd = true := rfl
  simp only [State.fixedCommands, State.byte_trace _ hcmd, State.setStep_trace, State.wait_trace,
    State.sendAll_trace _ hcmd, State.setIdx_trace, State.nib_trace, fixedCommandEvents, ← cfg_events,
    List.append_assoc]
  rfl

/-- In command mode steps S1 to S10 emit all of the run's events but the version characters'. -/
theorem State.beforeVersion_trace (h : s.sessionMode = 0#2) : s.beforeVersion.trace =
    s.trace ++ (acqEvents s.params ++ (frameEvents 0x00#8 ++ fixedCommandEvents ++ bannerEvents)) := by
  have hcmd : modeAdmitted modeCmd = true := rfl
  have hchr : modeAdmitted modeChr = true := rfl
  simp only [State.beforeVersion, s.sessionByte_of_command h, State.byte_trace _ hcmd, State.sendAll_trace _ hchr,
    State.setStep_trace, State.setIdx_trace, State.fixedCommands_trace, State.frame_trace, State.acquire_trace,
    State.setStep_params, bannerEvents, List.append_assoc]
  rfl

theorem State.booted_trace (h : s.sessionMode = 0#2) (cs : List Byte) :
    (s.booted cs).trace = s.trace ++ bootEvents s.params cs := by
  rw [State.booted, State.setStep_trace, State.sendAll_trace _ rfl, State.setIdx_trace, State.setStep_trace,
    s.beforeVersion_trace h, bootEvents_eq, sentEvents]
  simp only [List.append_assoc]
  rfl

/-- Steps S3 to S8 leave the lines at rest (R116). -/
theorem Lines.replay_fixedCommands (ls : Lines) : ls.replay fixedCommandEvents = ls.rest false := by
  have hcmd : modeAdmitted 0x00#8 = true := rfl
  simp only [fixedCommandEvents, configEvents, Lines.replay_append, Lines.replay_nib, Lines.replay_wait,
    Lines.replay_byte _ _ _ hcmd, Lines.rest_rest]

theorem Lines.replay_banner (ls : Lines) : ls.replay bannerEvents = ls.rest false := by
  rw [bannerEvents, Lines.replay_append, Lines.replay_byte _ _ _ rfl, Lines.replay_text _ _ (by decide), Lines.rest_rest]

/-- A run leaves the lines acquired and at rest, whether or not it sends a version character (R161). -/
theorem Lines.replay_boot (ls : Lines) (p : Params) (cs : List Byte) :
    ls.replay (bootEvents p cs) = (Lines.acquired p).rest false := by
  rw [bootEvents_eq, Lines.replay_append, Lines.replay_acq, sentEvents, Lines.replay_append, Lines.replay_append,
    Lines.replay_append, Lines.replay_frame, Lines.replay_fixedCommands, Lines.replay_banner, textEvents,
    Lines.replay_bytes cs rfl]
  split <;> rfl

/-! ### VERSION -/

/-- The state with another VERSION. -/
def State.setVersion (s : State) (v : List Host.Cell) : State := { s with version := v }

variable (v : List Host.Cell)

theorem State.setVersion_self : s.setVersion s.version = s := rfl

@[simp] theorem State.setVersion_version : (s.setVersion v).version = v := rfl
@[simp] theorem State.setVersion_idx : (s.setVersion v).idx = s.idx := rfl
@[simp] theorem State.setVersion_sessionMode : (s.setVersion v).sessionMode = s.sessionMode := rfl
@[simp] theorem State.setVersion_setStep (n : BitVec 4) : (s.setVersion v).setStep n = (s.setStep n).setVersion v := rfl
@[simp] theorem State.setVersion_setIdx (n : BitVec 5) : (s.setVersion v).setIdx n = (s.setIdx n).setVersion v := rfl
@[simp] theorem State.setVersion_acquire : (s.setVersion v).acquire = s.acquire.setVersion v := rfl
@[simp] theorem State.setVersion_wait (n : BitVec 13) : (s.setVersion v).wait n = (s.wait n).setVersion v := rfl

@[simp] theorem State.setVersion_frame (b : Byte) : (s.setVersion v).frame b = (s.frame b).setVersion v := by
  rw [State.frame_eq_rest, State.frame_eq_rest]
  rfl

@[simp] theorem State.setVersion_nib (x : Byte) : (s.setVersion v).nib x = (s.nib x).setVersion v := by
  rw [State.nib_eq, State.nib_eq]
  rfl

@[simp] theorem State.setVersion_byte {m : Byte} (h : modeAdmitted m = true) (c : Byte) :
    (s.setVersion v).byte m c = (s.byte m c).setVersion v := by
  rw [State.byte_eq_rest _ c h, State.byte_eq_rest _ c h]
  rfl

@[simp] theorem State.setVersion_sendAll {m : Byte} (h : modeAdmitted m = true) (cs : List Byte) :
    (s.setVersion v).sendAll m cs = (s.sendAll m cs).setVersion v := by
  induction cs generalizing s with
  | nil => rfl
  | cons c cs ih =>
    rw [State.sendAll_cons, State.sendAll_cons, State.setVersion_byte _ _ h, State.setVersion_idx,
      State.setVersion_setIdx, ih]

/-- Steps S1 to S10 neither read nor write VERSION (R23, R33). -/
theorem State.setVersion_beforeVersion : (s.setVersion v).beforeVersion = s.beforeVersion.setVersion v := by
  have hcmd : modeAdmitted modeCmd = true := rfl
  have hchr : modeAdmitted modeChr = true := rfl
  simp only [State.beforeVersion, State.fixedCommands, State.sessionByte, State.setVersion_sessionMode,
    State.setVersion_setStep, State.setVersion_setIdx, State.setVersion_acquire, State.setVersion_wait,
    State.setVersion_frame, State.setVersion_nib, State.setVersion_byte _ _ hcmd, State.setVersion_sendAll _ _ hcmd,
    State.setVersion_sendAll _ _ hchr]

theorem State.beforeVersion_version : s.beforeVersion.version = s.version := by
  rw [← s.setVersion_self, State.setVersion_beforeVersion]
  rfl

theorem State.setVersion_booted (cs : List Byte) : (s.setVersion v).booted cs = (s.booted cs).setVersion v := by
  rw [State.booted, State.setVersion_beforeVersion, State.setVersion_setStep, State.setVersion_setIdx,
    State.setVersion_sendAll _ _ rfl, State.setVersion_setStep, State.booted]

/-- Two versions that agree up to the terminator and below index 20 are the same string (R33). -/
theorem State.VersionIs.setVersion {s : State} {cs : List Byte} {v : List Host.Cell} (h : s.VersionIs cs)
    (hv : ∀ i, i ≤ cs.length → i < 20 → cellRead v i = cellRead s.version i) : (s.setVersion v).VersionIs cs := by
  obtain ⟨hlen, hchars, hend⟩ := h
  refine ⟨hlen, fun i => ?_, fun hlt => ?_⟩
  · rw [State.setVersion_version, hv i i.isLt.le (by omega)]
    exact hchars i
  · rw [State.setVersion_version, hv _ le_rfl hlt]
    exact hend hlt

/-- BOOT of an idle machine with a readable VERSION completes, in any mode (R101, R162). -/
theorem execBoot_of_version {s : State} {cs : List Byte} (h : s.stepReg = 0#4) (hcs : s.VersionIs cs) :
    execBoot s = .next (s.booted cs) := by
  have hv : (s.beforeVersion.setStep 11#4).VersionIs cs := by
    rwa [State.VersionIs, State.setStep_version, s.beforeVersion_version]
  rw [execBoot_eq s h, execS11_eq _ hv, andThen_of_next, State.booted]

/-- Everything a run of BOOT in command mode does (R101, R102, R161). -/
theorem exec_boot_emits {s : State} {cs : List Byte} (h : s.stepReg = 0#4) (hmode : s.sessionMode = 0#2)
    (hcs : s.VersionIs cs) :
    exec .boot s = .next (s.booted cs) ∧ (s.booted cs).trace = s.trace ++ bootEvents s.params cs ∧
      (s.booted cs).lines = (Lines.acquired s.params).rest false ∧ (s.booted cs).idx = BitVec.ofNat 5 cs.length ∧
      Moves s (s.booted cs) := by
  have hexec : exec .boot s = .next (s.booted cs) := execBoot_of_version h hcs
  have hmoves : Moves s (s.booted cs) := exec_moves .boot hexec
  have htrace := s.booted_trace hmode cs
  refine ⟨hexec, htrace, ?lines, ?idx, hmoves⟩
  case lines => rw [hmoves.lines_of_trace htrace, Lines.replay_boot]
  case idx =>
    obtain ⟨-, -, hidx⟩ := (s.beforeVersion.setStep 11#4).sendAll_from_zero (m := modeChr) cs rfl
    exact hidx

end Sys2Proof.Machine
end

section
open Sys2Proof Sys2Proof.Machine

/-- Settles O29: with the other VERSION the same string is read, and a run writes no store. -/
theorem versionBeyondTheTerminatorIsNotRead : Obligations.VersionBeyondTheTerminatorIsNotRead := by
  intro s cs v hcs hv
  have hcs' : (s.setVersion v).VersionIs cs := hcs.setVersion hv
  refine ⟨⟨_, execS11_eq s hcs, ?s11⟩, fun h => ⟨_, execBoot_of_version h hcs, ?boot⟩⟩
  case s11 =>
    refine (execS11_eq (s.setVersion v) hcs').trans ?_
    rw [State.setVersion_setIdx, State.setVersion_sendAll _ _ rfl]
    rfl
  case boot =>
    refine (execBoot_of_version (s := s.setVersion v) h hcs').trans ?_
    rw [State.setVersion_booted]
    rfl

/-- Settles O30: a run of BOOT, the fields it keeps by its being a move. -/
theorem bootEmitsTheWholeSequence : Obligations.BootEmitsTheWholeSequence := by
  intro s cs h hmode hcs
  obtain ⟨hexec, htrace, hlines, hidx, hm⟩ := exec_boot_emits h hmode hcs
  exact ⟨_, hexec, htrace, hlines, rfl, hidx, hm.sessionMode, hm.version, hm.params, hm.requests⟩

/-- Settles O32: each step of the machine from position 1 is the next of BOOT's steps. -/
theorem bootIsElevenSequencerSteps : Obligations.BootIsElevenSequencerSteps := runSteps_eleven_eq_execBoot

/-- Settles O33: the first run leaves the machine idle with the same VERSION, mode and parameters. -/
theorem secondBootRepeatsTheTrace : Obligations.SecondBootRepeatsTheTrace := by
  intro s cs h hmode hcs
  obtain ⟨hexec, htrace, hlines, hidx, hm⟩ := exec_boot_emits h hmode hcs
  have hcs' : (s.booted cs).VersionIs cs := by rwa [State.VersionIs, hm.version]
  have hmode' : (s.booted cs).sessionMode = 0#2 := hm.sessionMode.trans hmode
  obtain ⟨hexec', htrace', hlines', hidx', -⟩ := exec_boot_emits (s := s.booted cs) rfl hmode' hcs'
  refine ⟨_, _, hexec, hexec', htrace, ?_, ?_, hidx'.trans hidx.symm⟩
  · rw [htrace', htrace, hm.params, List.append_assoc]
  · rw [hlines', hlines, hm.params]

/-- Settles O35: from position 3 the six steps, whose events are R106's list. -/
theorem fixedCommandSequenceOfStepsThreeToEight : Obligations.FixedCommandSequenceOfStepsThreeToEight := by
  intro s h hmode
  have hs : s.setStep 3#4 = s := by rw [State.setStep, ← h]
  have hrun := runSteps_fixedCommands s
  rw [hs, s.sessionByte_of_command hmode] at hrun
  refine ⟨_, hrun, rfl, ?trace⟩
  case trace =>
    rw [State.setStep_trace, State.fixedCommands_trace]
    simp only [fixedCommandEvents, configEvents, List.append_assoc]

/-- Settles O50: BOOT and S11 by the version string, NIB and BYTE by their checks, the rest always. -/
theorem admittedOperandsAlwaysComplete : Obligations.AdmittedOperandsAlwaysComplete := by
  intro i s hwf hidle hversion
  cases i with
  | nib x => exact ⟨_, exec_nib_of_admitted s hwf⟩
  | byte m v => exact ⟨_, exec_byte_of_admitted s v hwf⟩
  | boot =>
    obtain ⟨cs, hcs⟩ := hversion (.inl rfl)
    exact ⟨_, execBoot_of_version (hidle rfl) hcs⟩
  | s7 => exact ⟨_, execS7_eq s⟩
  | s9 => exact ⟨_, execS9_eq s⟩
  | s11 =>
    obtain ⟨cs, hcs⟩ := hversion (.inr rfl)
    exact ⟨_, execS11_eq s hcs⟩
  | frmCmdE1 p | frmCmdE0 p | frmChrE1 p | frmChrE0 p => exact ⟨_, rfl⟩
  | xfer b | frame b => exact ⟨_, rfl⟩
  | delay n => exact ⟨_, rfl⟩
  | acq | s1 | s2 | s3 | s4 | s5 | s6 | s8 | s10 => exact ⟨_, rfl⟩

end

section
/-! What a run of BOOT amounts to: its counts, its waveform, and what a receiver reads of it. -/

namespace Sys2Proof.Machine

/-! ### Counts -/

theorem waitSum_append (as bs : List Event) : waitSum (as ++ bs) = waitSum as + waitSum bs := by
  induction as with
  | nil => simp [waitSum]
  | cons e as ih => cases e <;> simp [waitSum, ih, Nat.add_assoc]

/-- How many of the events satisfy `p`. -/
def countOf (p : Event → Bool) (es : List Event) : Nat := (es.filter p).length

theorem countOf_append (p : Event → Bool) (as bs : List Event) :
    countOf p (as ++ bs) = countOf p as + countOf p bs := by
  rw [countOf, List.filter_append, List.length_append, countOf, countOf]

section
variable {f : List Event → Nat} {w : Nat} {g : Nat → Nat} (happend : ∀ as bs, f (as ++ bs) = f as + f bs)
  (hwrite : ∀ l v, f [.w l v] = w) (hwait : ∀ n, f [.wait n] = g n)
include happend hwrite

/-- A measure that adds over lists and is `w` at every write is `27 * w` at every frame: 24 writes of XFER and three of
its own (R70, R80). -/
theorem measure_frame (b : Byte) : f (frameEvents b) = 27 * w := by
  have hbit (v : Level) : f (bitEvents v) = 3 * w := by
    have h : bitEvents v = [.w .data v] ++ [.w .clock true] ++ [.w .clock false] := rfl
    rw [h, happend, happend, hwrite, hwrite, hwrite]
    ring
  have hlow : f [.w .strobe false, .w .clock false] = 2 * w := by
    have h := happend [.w .strobe false] [.w .clock false]
    rw [hwrite, hwrite, ← Nat.two_mul] at h
    exact h
  simp only [frameEvents, xferEvents, happend, hbit, hlow, hwrite]
  ring

include hwait

/-- A byte is four frames and a wait (R81, R90). -/
theorem measure_byte (m v : Byte) : f (byteEvents m v) = 108 * w + g 37 := by
  simp only [byteEvents, nibEvents, happend, measure_frame happend hwrite, hwait]
  ring

theorem measure_text (cs : List Byte) : f (textEvents cs) = cs.length * (108 * w + g 37) := by
  induction cs with
  | nil =>
    have h : f [] = f [] + f [] := happend [] []
    rw [List.length_nil, Nat.zero_mul]
    exact Nat.left_eq_add.1 h
  | cons c cs ih =>
    rw [textEvents, List.flatMap_cons, happend, measure_byte happend hwrite hwait, ← textEvents, ih, List.length_cons]
    ring

/-- On what a run sends after its acquisitions: a frame, four nibble sends, 26 bytes and the characters, and the three
waits of S3, S4 and S7 (R102, R104). -/
theorem measure_sentEvents (cs : List Byte) : f (sentEvents cs) =
    (3051 + 108 * cs.length) * w + (g 4500 + g 150 + g 2000 + (26 + cs.length) * g 37) := by
  have hbanner : bannerText.length = 20 := rfl
  simp only [sentEvents, fixedCommandEvents, bannerEvents, configEvents, nibEvents, happend, measure_frame happend hwrite,
    measure_byte happend hwrite hwait, measure_text happend hwrite hwait, hwait, hbanner]
  ring

/-- On the whole run (R104). -/
theorem measure_bootEvents {p : Params} {a : Nat} (hacq : f (acqEvents p) = a) (cs : List Byte) : f (bootEvents p cs) =
    a + ((3051 + 108 * cs.length) * w + (g 4500 + g 150 + g 2000 + (26 + cs.length) * g 37)) := by
  rw [bootEvents_eq, happend, hacq, measure_sentEvents happend hwrite hwait]

end

/-! ### The waveform -/

theorem sentEvents_acquire_nothing (cs : List Byte) : ∀ e ∈ sentEvents cs, e.isAcquisition = false := by
  have h : countOf Event.isAcquisition (sentEvents cs) = 0 :=
    (measure_sentEvents (w := 0) (g := fun _ => 0) (countOf_append _) (fun _ _ => rfl) (fun _ => rfl) cs).trans (by ring)
  intro e he
  simpa using List.filter_eq_nil_iff.1 (List.length_eq_zero_iff.1 h) e he

/-- After the acquisitions the waveform depends neither on how they were seen nor on the lines before them: the
latches are then at the initial levels (R105, R130). -/
theorem waveform_boot (acq : List AcqEdge) (ls : Lines) (p : Params) (cs : List Byte) :
    waveform acq ls (bootEvents p cs) =
      waveform acq ls (acqEvents p) ++ waveform [] (Lines.acquired p) (sentEvents cs) := by
  rw [bootEvents_eq, waveform_append, Lines.replay_acq, waveform_no_acq _ [] _ _ (sentEvents_acquire_nothing cs)]

/-! ### The receiver -/

/-- The frames of steps S3 to S8 (R111 to R116). -/
def fixedCommandFrames : List FrameItem :=
  (nibFrames 0x30#8 ++ [.wait 4500]) ++ (nibFrames 0x30#8 ++ [.wait 150]) ++ nibFrames 0x30#8 ++ nibFrames 0x20#8 ++
    (byteFrames 0x00#8 0x28#8 ++ byteFrames 0x00#8 0x06#8 ++ byteFrames 0x00#8 0x0C#8 ++ byteFrames 0x00#8 0x01#8 ++
      [.wait 2000]) ++ byteFrames 0x00#8 0x80#8

/-- The frames of steps S9 and S10 (R117, R118). -/
def bannerFrames : List FrameItem := bannerText.flatMap (byteFrames 0x02#8) ++ byteFrames 0x00#8 0x94#8

/-- The frames of a run after S2's (R111 to R119). -/
def framesAfterSync (cs : List Byte) : List FrameItem :=
  fixedCommandFrames ++ bannerFrames ++ cs.flatMap (byteFrames 0x02#8)

/-- After the acquisitions every receiver reads a run as S2's frame and one and the same list (R133). -/
theorem frames_sent (r : Receiver) (cs : List Byte) :
    frames r (sentEvents cs) = .frame 0x00#8 :: framesAfterSync cs := by
  simp only [sentEvents, fixedCommandEvents, configEvents, bannerEvents, frames_append, frames_frame, frames_nib,
    frames_byte, frames_text, frames_wait, framesAfterSync, fixedCommandFrames, bannerFrames]
  rfl

/-- S2's frame pairs with nothing: the frame after it is no enable-clear frame of the same bits (R134). -/
theorem nibbles_sync (cs : List Byte) : nibbles (.frame 0x00#8 :: framesAfterSync cs) = nibbles (framesAfterSync cs) := by
  have hpair : isNibbleWrite 0x00#8 0x38#8 = false := by decide
  have hfirst : ∃ fs, framesAfterSync cs = .frame 0x38#8 :: fs := ⟨_, rfl⟩
  obtain ⟨fs, hfs⟩ := hfirst
  rw [hfs, nibbles, hpair]
  rfl

/-- What a receiver reads of a run after S2: the single nibbles, the command bytes and the two texts, with their waits
(R106, R136). -/
theorem bytesAfter_framesAfterSync (cs : List Byte) : bytesAfter 4 (nibbles (framesAfterSync cs)) =
    ([.nibble 3#4 false, .wait 4500, .nibble 3#4 false, .wait 150, .nibble 3#4 false, .nibble 2#4 false,
      .byte 0x28#8 false, .wait 37, .byte 0x06#8 false, .wait 37, .byte 0x0C#8 false, .wait 37,
      .byte 0x01#8 false, .wait 37, .wait 2000, .byte 0x80#8 false, .wait 37] : List ByteItem) ++
    textSeen banner ++ [.byte 0x94#8 false, .wait 37] ++ textSeen cs := by
  have hnib (fs : List FrameItem) : nibbles (nibFrames 0x30#8 ++ fs) = .nibble 3#4 false :: nibbles fs :=
    nibbles_nib rfl fs
  have hfour (fs : List FrameItem) : nibbles (nibFrames 0x20#8 ++ fs) = .nibble 2#4 false :: nibbles fs :=
    nibbles_nib rfl fs
  have hbyte (v : Byte) (fs : List FrameItem) :
      pairNibbles (nibbles (byteFrames 0x00#8 v ++ fs)) = .byte v false :: .wait 37 :: pairNibbles (nibbles fs) :=
    pairNibbles_byte v rfl fs
  have hend : pairNibbles (nibbles (cs.flatMap (byteFrames 0x02#8))) = textSeen cs := by
    have h := pairNibbles_text cs []
    rwa [List.append_nil, nibbles, pairNibbles, List.append_nil] at h
  have hbanner : bannerText = banner := rfl
  simp only [framesAfterSync, fixedCommandFrames, bannerFrames, List.append_assoc, hnib, hfour,
    nibbles_wait, bytesAfter, hbyte, pairNibbles_wait, pairNibbles_text, hend, hbanner, List.cons_append, List.nil_append]

/-- At the end of a run any receiver presents the last byte's low nibble with enable clear: S10's, or the last
character's (R135). -/
theorem Receiver.run_sent_rout (r : Receiver) (cs : List Byte) :
    (r.run (sentEvents cs)).rout = cs.getLast?.elim (loNibble 0x00#8 0x94#8) (loNibble 0x02#8) := by
  cases h : cs.getLast? with
  | none =>
    have hempty : textEvents cs = [] := congrArg textEvents (List.getLast?_eq_none_iff.1 h)
    rw [sentEvents, bannerEvents, hempty, List.append_nil, ← List.append_assoc, Receiver.run_append,
      Receiver.run_byte_rout, Option.elim_none]
  | some c =>
    obtain ⟨init, rfl⟩ := List.getLast?_eq_some_iff.1 h
    have hlast : textEvents (init ++ [c]) = textEvents init ++ byteEvents 0x02#8 c := by
      rw [textEvents, List.flatMap_append, List.flatMap_singleton, textEvents]
    rw [sentEvents, hlast, ← List.append_assoc, Receiver.run_append, Receiver.run_byte_rout, Option.elim_some]

end Sys2Proof.Machine
end

section
open Sys2Proof Sys2Proof.Machine

/-- Settles O34: each count adds over the event list and is the same for every frame, nibble send and byte. -/
theorem bootCountsAndDuration : Obligations.BootCountsAndDuration := by
  intro s cs h hmode hcs
  obtain ⟨hexec, htrace, -⟩ := exec_boot_emits h hmode hcs
  refine ⟨s.booted cs, bootEvents s.params cs, hexec, htrace, ?acquisitions, ?writes, ?waits, ?length, ?sum⟩
  case acquisitions =>
    exact (measure_bootEvents (a := 4) (w := 0) (g := fun _ => 0) (countOf_append Event.isAcquisition) (fun _ _ => rfl)
      (fun _ => rfl) rfl cs).trans (by ring)
  case writes =>
    exact (measure_bootEvents (a := 0) (w := 1) (g := fun _ => 0) (countOf_append Event.isWrite) (fun _ _ => rfl)
      (fun _ => rfl) rfl cs).trans (by ring)
  case waits =>
    exact (measure_bootEvents (a := 0) (w := 0) (g := fun _ => 1) (countOf_append Event.isWait) (fun _ _ => rfl)
      (fun _ => rfl) rfl cs).trans (by ring)
  case length =>
    exact (measure_bootEvents (a := 4) (w := 1) (g := fun _ => 1) (fun _ _ => List.length_append) (fun _ _ => rfl)
      (fun _ => rfl) rfl cs).trans (by ring)
  case sum =>
    exact (measure_bootEvents (a := 0) (w := 0) (g := fun n => n) waitSum_append (fun _ _ => rfl) (fun _ => rfl)
      rfl cs).trans (by ring)

/-- Settles O38: after the acquisitions the lines and the events are the same for all. -/
theorem bootWaveformDiffersOnlyAtAcquisition : Obligations.BootWaveformDiffersOnlyAtAcquisition := by
  intro s cs h hmode hcs
  obtain ⟨hexec, htrace, -⟩ := exec_boot_emits h hmode hcs
  exact ⟨s.booted cs, bootEvents s.params cs, _, hexec, htrace, fun acq ls => waveform_boot acq ls s.params cs⟩

/-- Settles O40: the acquisitions make at most one frame, and all after them is read alike by every receiver. -/
theorem bootIsSeenAsItsBytes : Obligations.BootIsSeenAsItsBytes := by
  intro s cs h hmode hcs
  obtain ⟨hexec, htrace, -⟩ := exec_boot_emits h hmode hcs
  refine ⟨s.booted cs, bootEvents s.params cs, framesAfterSync cs, hexec, htrace,
    bytesAfter_framesAfterSync cs, fun r => ?_⟩
  have hframes : frames r (bootEvents s.params cs) =
      (if r.acq.headD none = some true then [.frame r.rsh] else []) ++ .frame 0x00#8 :: framesAfterSync cs := by
    rw [bootEvents_eq, frames_append, frames_acq, frames_sent]
  refine ⟨hframes, fun hedge => ?_⟩
  rw [bytesSeen, hframes, if_neg hedge, List.nil_append, nibbles_sync]

/-- Settles O41: the last byte sent is the last character's, or S10's when there is none. -/
theorem outputsRestAtTheLastFrame : Obligations.OutputsRestAtTheLastFrame := by
  intro s cs r h hmode hcs
  obtain ⟨hexec, htrace, -⟩ := exec_boot_emits h hmode hcs
  refine ⟨s.booted cs, bootEvents s.params cs, hexec, htrace, ?_⟩
  rw [bootEvents_eq, Receiver.run_append, Receiver.run_sent_rout]
  cases cs.getLast? <;> rfl

end
